-- ==== Sys2Proof/Word.lean ====
section
/-! DEFINITION. The byte, the one width of the hardware, and its narrowing from exact arithmetic
(spec 00_scope.md R6: all arithmetic is on unbounded non-negative integers, reduced modulo 256). -/

namespace Sys2Proof

/-- A byte: a memory cell, a register, an operand, an address (R5: `CELL_BITS` = `XLEN` = `PC_BITS` = 8). -/
abbrev Byte := BitVec 8

/-- `n mod 256` as a byte (R6). -/
abbrev Byte.narrow (n : Nat) : Byte := BitVec.ofNat 8 n

end Sys2Proof
end

