-- ==== Sys2Proof/Syntax.lean ====
section
/-! DEFINITION. The thirteen instructions as syntax (spec 30_encoding.md R60 to R66): their mnemonics, the three
formats, and the instruction with its operand bytes as they stand in memory. -/

namespace Sys2Proof

/-- The thirteen mnemonics, in the order of the opcode map (R66). -/
inductive Mnemonic where
  | ldi | prn | hlt | mul | add | push | pop | call | ret | cmp | jmp | jeq | jne
  deriving DecidableEq, Repr

/-- Every mnemonic once, in the order of the opcode map (R66). -/
def Mnemonic.all : List Mnemonic :=
  [.ldi, .prn, .hlt, .mul, .add, .push, .pop, .call, .ret, .cmp, .jmp, .jeq, .jne]

/-- The three formats: opcode alone, opcode and `a`, opcode and `a` and `b` (R61). -/
inductive Format where
  | op0 | op1 | op2
  deriving DecidableEq, Repr

/-- How many operand bytes follow the opcode (R60, R61). -/
def Format.operandCount : Format → Nat
  | .op0 => 0
  | .op1 => 1
  | .op2 => 2

/-- The format of each mnemonic (R61, R66; JEQ and JNE by decision D27). -/
def Mnemonic.format : Mnemonic → Format
  | .hlt | .ret => .op0
  | .prn | .push | .pop | .call | .jmp | .jeq | .jne => .op1
  | .ldi | .mul | .add | .cmp => .op2

/-- An instruction. `a` and `b` are the operand bytes, whole and unreduced (R64): a byte above 7 that stands for a
register index is a legal decoding and raises RegisterIndexFault when it executes (R65, R85). -/
inductive Instr where
  /-- LDI a, b: load immediate (R100). -/
  | ldi (a b : Byte)
  /-- PRN a: print register (R101). -/
  | prn (a : Byte)
  /-- HLT: halt (R102). -/
  | hlt
  /-- MUL a, b: multiply (R114). -/
  | mul (a b : Byte)
  /-- ADD a, b: add (R115). -/
  | add (a b : Byte)
  /-- PUSH a (R130). -/
  | push (a : Byte)
  /-- POP a (R131). -/
  | pop (a : Byte)
  /-- CALL a (R140). -/
  | call (a : Byte)
  /-- RET (R141). -/
  | ret
  /-- CMP a, b: compare (R116). -/
  | cmp (a b : Byte)
  /-- JMP a (R142). -/
  | jmp (a : Byte)
  /-- JEQ a: jump if Equal (R143). -/
  | jeq (a : Byte)
  /-- JNE a: jump if not Equal (R144). -/
  | jne (a : Byte)
  deriving DecidableEq, Repr

/-- The mnemonic of an instruction. -/
def Instr.mnemonic : Instr → Mnemonic
  | .ldi _ _ => .ldi
  | .prn _ => .prn
  | .hlt => .hlt
  | .mul _ _ => .mul
  | .add _ _ => .add
  | .push _ => .push
  | .pop _ => .pop
  | .call _ => .call
  | .ret => .ret
  | .cmp _ _ => .cmp
  | .jmp _ => .jmp
  | .jeq _ => .jeq
  | .jne _ => .jne

end Sys2Proof
end

