-- ==== Sys2Proof/Config.lean ====
section
/-! DEFINITION. The parameters of the hardware (spec 00_scope.md R5): the sizes the source fixes, and the four
points the spec decides and offers as parameters. No free value: 93_implementation_defined.md lists none. -/

namespace Sys2Proof

/-- What a PC-derived address of 256 or more does (R5 `TOP_POLICY`, decisions D6, D7). -/
inductive TopPolicy where
  /-- AddressFault: the value the spec takes. -/
  | fault
  /-- The address wraps modulo 256: the alternative described in D6. -/
  | wrap
  deriving DecidableEq, Repr

/-- What a register-index operand above 7 does (R5 `REGIDX_POLICY`, decision D8). -/
inductive RegIdxPolicy where
  /-- RegisterIndexFault: the value the spec takes. -/
  | fault
  /-- Only `operand[2:0]` counts: the alternative described in D8. -/
  | mask
  deriving DecidableEq, Repr

/-- The four parameters the spec offers (R5). -/
structure Config where
  /-- `OPC`: the opcode byte of each mnemonic (D1). -/
  opc : Mnemonic → Byte
  /-- `JCOND_WIRED`: whether JEQ and JNE are implemented (D2). -/
  jcondWired : Bool
  /-- `TOP_POLICY` (D6, D7). -/
  topPolicy : TopPolicy
  /-- `REGIDX_POLICY` (D8). -/
  regIdxPolicy : RegIdxPolicy

/-- What an opcode map must satisfy (R67): injective, and bits 7:6 of each opcode its operand count. -/
structure Config.Lawful (c : Config) : Prop where
  injective : ∀ m m' : Mnemonic, c.opc m = c.opc m' → m = m'
  countBits : ∀ m : Mnemonic, (c.opc m).toNat / 64 = m.format.operandCount

/-- Whether a mnemonic is implemented (R71): JEQ and JNE only under `JCOND_WIRED`. -/
def Config.implements (c : Config) : Mnemonic → Bool
  | .jeq | .jne => c.jcondWired
  | .ldi | .prn | .hlt | .mul | .add | .push | .pop | .call | .ret | .cmp | .jmp => true

/-- `MEM_SIZE` (R5). -/
abbrev Config.memSize : Nat := 256

/-- `SP_INDEX`: the register that is the stack pointer (R5, R12). -/
abbrev Config.spIndex : Fin 8 := 7

/-- `SP_RESET` (R5, R12). -/
abbrev Config.spReset : Byte := 0xF4

end Sys2Proof
end

