-- ==== Sys2Proof/WellFormed.lean ====
section
/-! DEFINITION. Well-formed instructions: every operand byte used as a register index is 0 to 7 (spec 30_encoding.md
R64, R65; 40_cycle.md R84). An ill-formed instruction still decodes, and raises RegisterIndexFault when it runs. -/

namespace Sys2Proof

/-- A legal register-index operand (R65). -/
def legalIndex (v : Byte) : Bool := decide (v.toNat ≤ 7)

/-- Whether every register index the instruction uses is legal (R84: LDI's `b` is an immediate and is not checked). -/
def Instr.wellFormed : Instr → Bool
  | .ldi a _ => legalIndex a
  | .prn a => legalIndex a
  | .hlt => true
  | .mul a b => legalIndex a && legalIndex b
  | .add a b => legalIndex a && legalIndex b
  | .push a => legalIndex a
  | .pop a => legalIndex a
  | .call a => legalIndex a
  | .ret => true
  | .cmp a b => legalIndex a && legalIndex b
  | .jmp a => legalIndex a
  | .jeq a => legalIndex a
  | .jne a => legalIndex a

end Sys2Proof
end

