-- ==== Sys2Proof/Decode.lean ====
section
/-! DEFINITION. The opcode map of this hardware, the decoder (total on any bytes, rejecting by name) and the encoder
(spec 30_encoding.md R60 to R71). Decoding matches the whole opcode byte (R63, R67); operand bytes are unconstrained. -/

namespace Sys2Proof

/-- The opcode map (R66). UNVERIFIED: the spec adopts these bytes from general knowledge (D1), log entry 1. -/
def opcodeMap : Mnemonic → Byte
  | .ldi => 0x82
  | .prn => 0x47
  | .hlt => 0x01
  | .mul => 0xA2
  | .add => 0xA0
  | .push => 0x45
  | .pop => 0x46
  | .call => 0x50
  | .ret => 0x11
  | .cmp => 0xA7
  | .jmp => 0x54
  | .jeq => 0x55
  | .jne => 0x56

/-- The parameter values the spec's rules are written for (00_scope.md R5), log entry 9. -/
def coreConfig : Config where
  opc := opcodeMap
  jcondWired := true
  topPolicy := .fault
  regIdxPolicy := .fault

/-- The implemented mnemonic whose opcode is exactly `ir`, if there is one (R63, R67, R71). -/
def Config.mnemonicOf (c : Config) (ir : Byte) : Option Mnemonic :=
  Mnemonic.all.find? fun m => c.implements m && c.opc m == ir

/-- The instruction of a mnemonic and the two bytes fetched after the opcode; a byte the format does not have is
ignored (R70). -/
def Mnemonic.instr (m : Mnemonic) (a b : Byte) : Instr :=
  match m with
  | .ldi => .ldi a b
  | .prn => .prn a
  | .hlt => .hlt
  | .mul => .mul a b
  | .add => .add a b
  | .push => .push a
  | .pop => .pop a
  | .call => .call a
  | .ret => .ret
  | .cmp => .cmp a b
  | .jmp => .jmp a
  | .jeq => .jeq a
  | .jne => .jne a

/-- The operand bytes an instruction is encoded with, in ascending address order (R44, R61, R64). -/
def Instr.operands : Instr → List Byte
  | .ldi a b => [a, b]
  | .prn a => [a]
  | .hlt => []
  | .mul a b => [a, b]
  | .add a b => [a, b]
  | .push a => [a]
  | .pop a => [a]
  | .call a => [a]
  | .ret => []
  | .cmp a b => [a, b]
  | .jmp a => [a]
  | .jeq a => [a]
  | .jne a => [a]

/-- Why bytes do not decode. -/
inductive DecodeError where
  /-- The first byte is no implemented opcode (R68). -/
  | unknownOpcode (byte : Byte)
  /-- The opcode is known and the list ends before its operands do. The core never sees this one: its fetch always
  hands over three bytes (R82), log entry 11. -/
  | truncated (m : Mnemonic)
  /-- No bytes at all. -/
  | empty
  deriving DecidableEq, Repr

/-- Decoding under any parameters: the instruction at the head of the bytes, and the bytes after it. -/
def decodeWith (c : Config) : List Byte → Except DecodeError (Instr × List Byte)
  | [] => .error .empty
  | ir :: rest =>
    match c.mnemonicOf ir with
    | none => .error (.unknownOpcode ir)
    | some m =>
      match m.format, rest with
      | .op0, rest => .ok (m.instr 0 0, rest)
      | .op1, a :: rest => .ok (m.instr a 0, rest)
      | .op2, a :: b :: rest => .ok (m.instr a b, rest)
      | .op1, [] => .error (.truncated m)
      | .op2, [] => .error (.truncated m)
      | .op2, [_] => .error (.truncated m)

/-- Decoding on this hardware. -/
def decode (bytes : List Byte) : Except DecodeError (Instr × List Byte) := decodeWith coreConfig bytes

/-- Encoding under any opcode map: the opcode byte, then the operands (R60, R61). -/
def encodeWith (c : Config) (i : Instr) : List Byte := c.opc i.mnemonic :: i.operands

/-- Encoding on this hardware. -/
def encode (i : Instr) : List Byte := encodeWith coreConfig i

/-- The three bytes of a table word: bit 0 is the least significant bit of the first byte, and the bits at and above
`nbits` are 0. -/
def wordBytes (nbits w : Nat) : List Byte :=
  let v := w % 2 ^ nbits
  [Byte.narrow v, Byte.narrow (v / 256), Byte.narrow (v / 65536)]

/-- What the decoder reads from an opcode-table word, log entry 7. -/
def decodeTableWord (nbits w : Nat) : Option Instr :=
  match decode (wordBytes nbits w) with
  | .ok (i, _) => some i
  | .error _ => none

end Sys2Proof
end

