-- ==== Sys2Proof/Machine/State.lean ====
section
/-! DEFINITION. The whole state of the core as plain data (spec 10_state.md R10), the state after reset (R31), and the
reasons a step can stop, of which this hardware has none. -/

namespace Sys2Proof.Machine

/-- Memory: the cells that do not hold 0, as address and byte, addresses strictly rising (log entry 12).
A cell that is not listed holds 0, its reset value (10_state.md R31, 20_memory.md R55). -/
abbrev Memory := List Host.Cell

/-- The byte an unlisted cell holds (R31, R55). -/
def Memory.unlisted : Byte := 0

/-- The canonical form: addresses strictly rising from `low` on and below `MEM_SIZE`, no entry equal to what an
unlisted cell holds. -/
def Memory.wfFrom (low : Nat) : Memory → Bool
  | [] => true
  | (a, v) :: rest => decide (low ≤ a ∧ a < Config.memSize ∧ v ≠ Memory.unlisted) && Memory.wfFrom (a + 1) rest

/-- The canonical form of memory: equal memories are equal lists. -/
def Memory.wf (m : Memory) : Bool := Memory.wfFrom 0 m

/-- The run status `RS` (10_state.md R23); its numeric code is `RunStatus.code` (log entry 5). -/
inductive RunStatus where
  /-- Reset done, program not yet started. -/
  | idle
  /-- The core performs steps. -/
  | running
  /-- A HLT was executed. -/
  | halted
  /-- An unknown opcode byte was fetched; `BADOP` holds it. -/
  | stopped
  /-- A fault was raised; `CAUSE` and `INFO` say which. -/
  | faulted
  deriving DecidableEq, Repr

/-- The cause of a fault, `CAUSE` (10_state.md R25); its numeric code is `Cause.code` (log entry 5). -/
inductive Cause where
  /-- No fault since reset. -/
  | none
  /-- A PC-derived address of 256 or more. -/
  | address
  /-- A register-index operand above 7. -/
  | regIndex
  /-- An ALU operation other than ADD, MUL, CMP. -/
  | aluUnsupported
  deriving DecidableEq, Repr

/-- The state: exactly the elements of R10. `SP` is `x[7]` (R12) and has no field of its own. -/
structure State where
  /-- `MEM`, 256 cells of 8 bits (20_memory.md R40). -/
  mem : Memory
  /-- `x`, eight registers of 8 bits (R11). -/
  x : Vector Byte 8
  /-- `PC`, 8 bits (R15). -/
  pc : Byte
  /-- `FL`, 8 bits: bit 0 Equal, bit 1 Greater, bit 2 Less (R19). -/
  fl : Byte
  /-- `RS`, the run status (R23). -/
  rs : RunStatus
  /-- `BADOP`, the byte of an unknown-opcode stop (R24). -/
  badop : Byte
  /-- `CAUSE`, the cause of a fault (R25). -/
  cause : Cause
  /-- `INFO`, the value recorded with a fault (R25). -/
  info : Byte
  /-- `OUT`, what PRN has emitted since reset, oldest first (R27). -/
  out : List Byte
  deriving DecidableEq, Repr

/-- The state after reset (R31, 70_reset_and_hazards.md R190); every value is the spec's. -/
def State.reset : State where
  mem := []
  x := #v[0, 0, 0, 0, 0, 0, 0, Config.spReset]
  pc := 0
  fl := 0
  rs := .idle
  badop := 0
  cause := .none
  info := 0
  out := []

/-- The reasons a step could stop the model outside the spec's own terminal states. There is none, so nothing raises
one: every event of this hardware is a next state in which `RS` says how the run ended (60_exceptions.md R160, R166),
log entry 4. -/
inductive Fault where
  deriving DecidableEq, Repr

/-- The reasons the model gives an instruction no meaning. -/
inductive Refusal where
  /-- Raised by `exec` alone, for an instruction not modelled yet (safe: the model stops). Every instruction of this
  hardware is modelled, so nothing raises it. -/
  | notModelled (mnemonic : String)
  deriving DecidableEq, Repr

/-- The three outcomes of a step, at this machine's types. -/
abbrev StepOutcome := Host.Outcome State Fault Refusal

end Sys2Proof.Machine
end

