-- ==== Sys2Proof/Machine/Ops.lean ====
section
/-! DEFINITION. The named operations every meaning is built from: memory, registers, the program counter, the output
stream, the fetch, and taking an exceptional event (a halt, a stop, a fault), which the spec gives no return from but
reset. -/

namespace Sys2Proof.Machine

/-- `MEM[addr]` by number: the listed byte, else what an unlisted cell holds. -/
def Memory.readAt (a : Nat) : Memory → Byte
  | [] => Memory.unlisted
  | (k, v) :: rest => if k = a then v else Memory.readAt a rest

/-- The list with cell `a` written, in canonical form when it was. -/
def Memory.writeAt (a : Nat) (v : Byte) : Memory → Memory
  | [] => if v = Memory.unlisted then [] else [(a, v)]
  | (k, w) :: rest =>
    if a < k then
      if v = Memory.unlisted then (k, w) :: rest else (a, v) :: (k, w) :: rest
    else if a = k then
      if v = Memory.unlisted then rest else (a, v) :: rest
    else (k, w) :: Memory.writeAt a v rest

/-- `MemRead(addr, 1)` (20_memory.md R42). The precondition `0 <= addr <= 255` is the address's type. -/
def Memory.read (m : Memory) (addr : Byte) : Byte := Memory.readAt addr.toNat m

/-- `MemWrite(addr, 1, v)` (R42). -/
def Memory.write (m : Memory) (addr v : Byte) : Memory := Memory.writeAt addr.toNat v m

/-- `x[i]` (00_scope.md R7). -/
def State.reg (s : State) (i : Fin 8) : Byte := s.x[i]

/-- `x[i] <- v` (R7). No register is hardwired (10_state.md R11). -/
def State.setReg (s : State) (i : Fin 8) (v : Byte) : State := { s with x := s.x.set i v }

/-- `SP`, another spelling of `x[7]` (R7, 10_state.md R12). -/
def State.sp (s : State) : Byte := s.reg Config.spIndex

/-- `MemRead` on the state's memory. -/
def State.memRead (s : State) (addr : Byte) : Byte := s.mem.read addr

/-- `MemWrite` on the state's memory. -/
def State.memWrite (s : State) (addr v : Byte) : State := { s with mem := s.mem.write addr v }

/-- `PC <- target` (R7). -/
def State.setPc (s : State) (target : Byte) : State := { s with pc := target }

/-- `PC <- PC + len` (40_cycle.md R86); the checks of R81 and R87 have passed, so nothing wraps. -/
def State.advance (s : State) (len : Byte) : State := s.setPc (s.pc + len)

/-- `FL <- v`: the whole byte (42_alu.md R116). -/
def State.setFlags (s : State) (v : Byte) : State := { s with fl := v }

/-- `emit(v)`: `OUT <- OUT ++ [v]` (R7, 10_state.md R27). -/
def State.emit (s : State) (v : Byte) : State := { s with out := s.out ++ [v] }

/-- `x[7] <- (x[7] - 1) mod 256` (43_stack.md R130, R132). -/
def State.decSp (s : State) : State := s.setReg Config.spIndex (s.sp - 1)

/-- `x[7] <- (x[7] + 1) mod 256` (43_stack.md R131, R132). -/
def State.incSp (s : State) : State := s.setReg Config.spIndex (s.sp + 1)

/-- The three bytes of a step's fetch, `IR`, `a` and `b` (40_cycle.md R82). Under `TOP_POLICY = fault` the fetch check
has passed and no address wraps; under `wrap` the sums wrap as D6 describes. -/
def State.fetched (s : State) : List Byte := [s.memRead s.pc, s.memRead (s.pc + 1), s.memRead (s.pc + 2)]

/-- The numeric code of the run status (10_state.md R23). -/
def RunStatus.code : RunStatus → BitVec 3
  | .idle => 0
  | .running => 1
  | .halted => 2
  | .stopped => 3
  | .faulted => 4

/-- The numeric code of the cause (10_state.md R25). -/
def Cause.code : Cause → BitVec 2
  | .none => 0
  | .address => 1
  | .regIndex => 2
  | .aluUnsupported => 3

/-- A fault about to be raised: its cause and the value it records (60_exceptions.md R161). -/
structure Trap where
  cause : Cause
  info : Byte
  deriving DecidableEq, Repr

/-- `raise F(info)`: taking a fault, the one shared operation (60_exceptions.md R166). `PC` and all else stay. -/
def State.raise (s : State) (t : Trap) : State := { s with cause := t.cause, info := t.info, rs := .faulted }

/-- `stop UnknownOpcode(b)` (60_exceptions.md R163). -/
def State.stopUnknownOpcode (s : State) (b : Byte) : State := { s with badop := b, rs := .stopped }

/-- `RS <- HALTED` (41_load_print_halt.md R102, 60_exceptions.md R162). -/
def State.halt (s : State) : State := { s with rs := .halted }

/-- A check of a step, made before any effect (40_cycle.md R80, R88): what follows goes on with the value the check
gives, or the fault is raised from `s` and nothing else of the step is performed. -/
def State.checked {α : Type} (s : State) (check : Except Trap α) (goOn : α → StepOutcome) : StepOutcome :=
  match check with
  | .ok v => goOn v
  | .error t => .next (s.raise t)

end Sys2Proof.Machine
end

