-- ==== Sys2Proof/Machine/Operands.lean ====
section
/-! DEFINITION. The checks of a step and the register-index operand (spec 40_cycle.md R81, R84, R85, R87), under either
value of the parameters they depend on, and as this hardware makes them. -/

namespace Sys2Proof.Machine

/-- The fetch range check (R81): `PC <= 253`, or AddressFault with `PC`. -/
def fetchCheck (p : TopPolicy) (pc : Byte) : Except Trap Unit :=
  match p with
  | .fault => if pc.toNat ≤ 253 then .ok () else .error ⟨.address, pc⟩
  | .wrap => .ok ()

/-- The register-index operand (R85): 0 to 7, or RegisterIndexFault with the operand byte. Nothing is masked, but under
`REGIDX_POLICY = mask` (D8). -/
def regIndex (p : RegIdxPolicy) (v : Byte) : Except Trap (Fin 8) :=
  match p with
  | .fault => if h : v.toNat < 8 then .ok ⟨v.toNat, h⟩ else .error ⟨.regIndex, v⟩
  | .mask => .ok ⟨v.toNat % 8, Nat.mod_lt _ (by decide)⟩

/-- The advance range check (R87): `PC + len <= 255`, or AddressFault with `PC`. -/
def advanceCheck (p : TopPolicy) (pc : Byte) (len : Nat) : Except Trap Unit :=
  match p with
  | .fault => if pc.toNat + len ≤ 255 then .ok () else .error ⟨.address, pc⟩
  | .wrap => .ok ()

/-- The fetch range check of this hardware. Every instruction's rule lists it (R100 to R144, "AddressFault if
`PC >= 254`"), so every meaning makes it, beside the step itself (log entry 3). -/
def checkFetch (s : State) : Except Trap Unit := fetchCheck coreConfig.topPolicy s.pc

/-- A register-index operand on this hardware. -/
def checkReg (v : Byte) : Except Trap (Fin 8) := regIndex coreConfig.regIdxPolicy v

/-- The advance range check of a 3-byte instruction on this hardware. -/
def checkAdvance3 (s : State) : Except Trap Unit := advanceCheck coreConfig.topPolicy s.pc 3

/-- The operand byte that names register `i` (30_encoding.md R72). -/
def regOperand (i : Fin 8) : Byte := Byte.narrow i.val

end Sys2Proof.Machine
end

