-- ==== Sys2Proof/Machine/Flags.lean ====
section
/-! DEFINITION. The ALU and the flags (spec 42_alu.md R110 to R113, R116; 10_state.md R19): a combinational function of
an operation and two bytes, and the step that writes its result back. -/

namespace Sys2Proof.Machine

/-- The ALU's operation input (R110), wider than the decoder drives it (R113, D25). -/
inductive AluOp where
  | add
  | mul
  | cmp
  /-- Any other operation code, as the opcode byte in `IR` that asked for it. No instruction produces it. -/
  | other (ir : Byte)
  deriving DecidableEq, Repr

/-- What the ALU answers: a result byte for `x[a]`, or a flags byte for `FL`, never both (R110). -/
inductive AluResult where
  | result (v : Byte)
  | flags (v : Byte)
  deriving DecidableEq, Repr

/-- `FL` for Equal: bit 0 (10_state.md R19). -/
def flagEqual : Byte := 0b00000001

/-- `FL` for Greater: bit 1. -/
def flagGreater : Byte := 0b00000010

/-- `FL` for Less: bit 2. -/
def flagLess : Byte := 0b00000100

/-- `FL[0]`, the E bit: the one bit that JEQ and JNE read (10_state.md R20). -/
def State.flagE (s : State) : Bool := s.fl.getLsbD 0

/-- The flags byte of a comparison (R116): unsigned, exactly one of the three values. -/
def compareFlags (va vb : Byte) : Byte :=
  if va.toNat = vb.toNat then flagEqual
  else if va.toNat < vb.toNat then flagLess
  else flagGreater

/-- The ALU (R110, R112): the exact result, its low 8 bits kept. -/
def alu (op : AluOp) (va vb : Byte) : Except Trap AluResult :=
  match op with
  | .add => .ok (.result (Byte.narrow (va.toNat + vb.toNat)))
  | .mul => .ok (.result (Byte.narrow (va.toNat * vb.toNat)))
  | .cmp => .ok (.flags (compareFlags va vb))
  | .other ir => .error ⟨.aluUnsupported, ir⟩

/-- Writing the ALU's answer back (R110). -/
def State.writeAlu (s : State) (i : Fin 8) : AluResult → State
  | .result v => s.setReg i v
  | .flags v => s.setFlags v

/-- An ALU instruction with operand bytes `a` and `b` (R114, R115, R116): the checks, the ALU on the two registers, the
write back, the advance. AluUnsupported comes after the checks (log entry 8). -/
def aluStep (op : AluOp) (a b : Byte) (s : State) : StepOutcome :=
  s.checked (checkFetch s) fun _ =>
  s.checked (checkReg a) fun i =>
  s.checked (checkReg b) fun j =>
  s.checked (checkAdvance3 s) fun _ =>
  s.checked (alu op (s.reg i) (s.reg j)) fun r =>
  .next ((s.writeAlu i r).advance 3)

end Sys2Proof.Machine
end

