-- ==== Sys2Proof/Machine/Arith.lean ====
section
/-! DEFINITION. MUL, ADD, CMP (spec 42_alu.md), each the ALU instruction of its operation. -/

namespace Sys2Proof.Machine

/-- MUL a, b (R114): `x[a] <- (x[a] * x[b]) mod 256; PC <- PC + 3`. -/
def execMul (a b : Byte) (s : State) : StepOutcome := aluStep .mul a b s

/-- ADD a, b (R115): `x[a] <- (x[a] + x[b]) mod 256; PC <- PC + 3`. -/
def execAdd (a b : Byte) (s : State) : StepOutcome := aluStep .add a b s

/-- CMP a, b (R116): `FL` gets 1, 4 or 2; `PC <- PC + 3`. -/
def execCmp (a b : Byte) (s : State) : StepOutcome := aluStep .cmp a b s

end Sys2Proof.Machine
end

