-- ==== Sys2Proof/Machine/Control.lean ====
section
/-! DEFINITION. CALL, RET, JMP, JEQ, JNE (spec 44_control.md). Targets are absolute and unchecked (R145). -/

namespace Sys2Proof.Machine

/-- CALL a (R140): the decrement, then the store of the return address `PC + 2`, then `PC <- x[a]` as it stands after
the decrement. -/
def execCall (a : Byte) (s : State) : StepOutcome :=
  s.checked (checkFetch s) fun _ =>
  s.checked (checkReg a) fun i =>
  let s1 := s.decSp
  let s2 := s1.memWrite s1.sp (s.pc + 2)
  .next (s2.setPc (s2.reg i))

/-- RET (R141): `PC <- MEM[x[7]]`, then the increment. -/
def execRet (s : State) : StepOutcome :=
  s.checked (checkFetch s) fun _ =>
  .next ((s.setPc (s.memRead s.sp)).incSp)

/-- A jump to `x[a]` when `taken` holds, else `PC + 2`; the operand is checked either way (40_cycle.md R85, D21). -/
def jumpWhen (taken : Bool) (a : Byte) (s : State) : StepOutcome :=
  s.checked (checkFetch s) fun _ =>
  s.checked (checkReg a) fun i =>
  .next (if taken then s.setPc (s.reg i) else s.advance 2)

/-- JMP a (R142): `PC <- x[a]`. -/
def execJmp (a : Byte) (s : State) : StepOutcome := jumpWhen true a s

/-- JEQ a (R143): taken when `FL[0] = 1`. -/
def execJeq (a : Byte) (s : State) : StepOutcome := jumpWhen s.flagE a s

/-- JNE a (R144): taken when `FL[0] = 0`. -/
def execJne (a : Byte) (s : State) : StepOutcome := jumpWhen (!s.flagE) a s

end Sys2Proof.Machine
end

