-- ==== Sys2Proof/Machine/LoadPrintHalt.lean ====
section
/-! DEFINITION. LDI, PRN, HLT (spec 41_load_print_halt.md). -/

namespace Sys2Proof.Machine

/-- LDI a, b (R100): `x[a] <- b; PC <- PC + 3`. -/
def execLdi (a b : Byte) (s : State) : StepOutcome :=
  s.checked (checkFetch s) fun _ =>
  s.checked (checkReg a) fun i =>
  s.checked (checkAdvance3 s) fun _ =>
  .next ((s.setReg i b).advance 3)

/-- PRN a (R101): `emit(x[a]); PC <- PC + 2`. -/
def execPrn (a : Byte) (s : State) : StepOutcome :=
  s.checked (checkFetch s) fun _ =>
  s.checked (checkReg a) fun i =>
  .next ((s.emit (s.reg i)).advance 2)

/-- HLT (R102): `RS <- HALTED`; `PC` unchanged. -/
def execHlt (s : State) : StepOutcome :=
  s.checked (checkFetch s) fun _ =>
  .next (s.halt)

end Sys2Proof.Machine
end

