-- ==== Sys2Proof/Machine/Stack.lean ====
section
/-! DEFINITION. PUSH, POP (spec 43_stack.md), in the order of effects the rules give (D20). -/

namespace Sys2Proof.Machine

/-- PUSH a (R130): the decrement, then the store of `x[a]` as it stands after the decrement, then `PC + 2`. -/
def execPush (a : Byte) (s : State) : StepOutcome :=
  s.checked (checkFetch s) fun _ =>
  s.checked (checkReg a) fun i =>
  let s1 := s.decSp
  .next ((s1.memWrite s1.sp (s1.reg i)).advance 2)

/-- POP a (R131): the load into `x[a]`, then the increment of `x[7]` as it stands after the load, then `PC + 2`. -/
def execPop (a : Byte) (s : State) : StepOutcome :=
  s.checked (checkFetch s) fun _ =>
  s.checked (checkReg a) fun i =>
  let s1 := s.setReg i (s.memRead s.sp)
  .next (s1.incSp.advance 2)

end Sys2Proof.Machine
end

