-- ==== Sys2Proof/Machine/Cycle.lean ====
section
/-! DEFINITION. The step of a running core (spec 40_cycle.md R89): fetch check, fetch, decode, and the meaning of the
decoded instruction, which makes the checks of R85 and R87 before its effects. -/

namespace Sys2Proof.Machine

/-- Fetch, decode and execute one instruction (R81, R82, R83, R86). Three bytes always decode or are an unknown opcode
(log entry 11). -/
def cycle (s : State) : StepOutcome :=
  s.checked (checkFetch s) fun _ =>
  match decode s.fetched with
  | .ok (i, _) => exec i s
  | .error _ => .next (s.stopUnknownOpcode (s.memRead s.pc))

/-- A core that is not running takes no step: nothing changes (10_state.md R23, 60_exceptions.md R168), log entry 2. -/
def stay (s : State) : StepOutcome := .next s

/-- The bytes stored from address `a` upward. -/
def State.storeBytes (a : Byte) : List Byte → State → State
  | [], s => s
  | v :: rest, s => State.storeBytes (a + 1) rest (s.memWrite a v)

/-- Where an instruction is placed to run next: at `PC`, or at 0 when `PC` is 254 or 255, from where no instruction can
execute (R81), log entry 7. -/
def State.fetchable (s : State) : State := if s.pc.toNat ≤ 253 then s else s.setPc 0

/-- `RS <- RUNNING`, as START leaves it (70_reset_and_hazards.md R194). -/
def State.started (s : State) : State := { s with rs := .running }

end Sys2Proof.Machine
end

