-- ==== Sys2Proof/Machine/Step.lean ====
section
/-! DEFINITION. One step of the machine (spec 40_cycle.md R80), and the placing of one instruction word where the next
step fetches. -/

namespace Sys2Proof.Machine

/-- A step is taken when and only when `RS = RUNNING` (R80); in every other run status nothing changes until the host
acts (R23, R168), log entry 2. -/
def step (s : State) : Host.Outcome State Fault Refusal :=
  match s.rs with
  | .running => cycle s
  | .idle => stay s
  | .halted => stay s
  | .stopped => stay s
  | .faulted => stay s

/-- `s` with an opcode-table word stored where the next step fetches, and the core running, as the host's LOAD and START
would leave it (70_reset_and_hazards.md R193, R194), log entries 6 and 7. -/
def State.withFetchWord (s : State) (nbits w : Nat) : State :=
  let t := s.fetchable
  (State.storeBytes t.pc (wordBytes nbits w) t).started

end Sys2Proof.Machine
end

