-- ==== Sys2Proof/Machine/Assembler.lean ====
section
/-! DEFINITION. The assembly syntax of spec 30_encoding.md R72 (decision D19): lines of text to the bytes they assemble
to. Nothing in the machine depends on it. What the grammar leaves open is log entry 13. -/

namespace Sys2Proof.Machine

/-- An operand as the grammar has it. -/
inductive AsmOperand where
  | register (i : Fin 8)
  | numeral (n : Nat)
  | label (name : List Char)
  deriving DecidableEq, Repr

/-- A line: an optional label, then an optional mnemonic with its operands in encoding order. -/
structure AsmLine where
  label : Option (List Char)
  statement : Option (Mnemonic × List AsmOperand)
  deriving DecidableEq, Repr

/-- The pieces of a line. -/
inductive AsmToken where
  | word (cs : List Char)
  | colon
  | comma
  deriving DecidableEq, Repr

/-- A finished word, if it is not empty. -/
def asmWord (cs : List Char) : List AsmToken := if cs = [] then [] else [.word cs]

/-- A line cut into words, colons and commas, up to a comment; `none` for any other character. -/
def asmTokens (word : List Char) : List Char → Option (List AsmToken)
  | [] => some (asmWord word)
  | c :: cs =>
    if c = ';' then some (asmWord word)
    else if c = ' ' ∨ c = '\t' then (asmTokens [] cs).map fun ts => asmWord word ++ ts
    else if c = ':' then (asmTokens [] cs).map fun ts => asmWord word ++ .colon :: ts
    else if c = ',' then (asmTokens [] cs).map fun ts => asmWord word ++ .comma :: ts
    else if c.isAlphanum ∨ c = '_' then asmTokens (word ++ [c]) cs
    else none

/-- The value of a digit. -/
def asmDigit (c : Char) : Nat :=
  if '0' ≤ c ∧ c ≤ '9' then c.toNat - '0'.toNat
  else if 'a' ≤ c ∧ c ≤ 'f' then c.toNat - 'a'.toNat + 10
  else if 'A' ≤ c ∧ c ≤ 'F' then c.toNat - 'A'.toNat + 10
  else 16

/-- Digits of a base, most significant first. -/
def asmDigits (base value : Nat) : List Char → Option Nat
  | [] => some value
  | c :: cs => if asmDigit c < base then asmDigits base (value * base + asmDigit c) cs else none

/-- A numeral: `0x` hexadecimal, `0b` binary, else decimal, with at least one digit. -/
def asmNumeral : List Char → Option Nat
  | '0' :: 'x' :: c :: cs => asmDigits 16 0 (c :: cs)
  | '0' :: 'b' :: c :: cs => asmDigits 2 0 (c :: cs)
  | c :: cs => asmDigits 10 0 (c :: cs)
  | [] => none

/-- A register: `R0` to `R7`. A register index above 7 has no spelling. -/
def asmRegister : List Char → Option (Fin 8)
  | ['R', c] => if h : asmDigit c < 8 then some ⟨asmDigit c, h⟩ else none
  | _ => none

/-- The mnemonics as they are written. -/
def asmMnemonic : List Char → Option Mnemonic
  | ['L', 'D', 'I'] => some .ldi
  | ['P', 'R', 'N'] => some .prn
  | ['H', 'L', 'T'] => some .hlt
  | ['M', 'U', 'L'] => some .mul
  | ['A', 'D', 'D'] => some .add
  | ['P', 'U', 'S', 'H'] => some .push
  | ['P', 'O', 'P'] => some .pop
  | ['C', 'A', 'L', 'L'] => some .call
  | ['R', 'E', 'T'] => some .ret
  | ['C', 'M', 'P'] => some .cmp
  | ['J', 'M', 'P'] => some .jmp
  | ['J', 'E', 'Q'] => some .jeq
  | ['J', 'N', 'E'] => some .jne
  | _ => none

/-- A word that can name a label: it does not begin with a digit, and is no register and no mnemonic. -/
def asmLabelName (cs : List Char) : Bool :=
  match cs with
  | [] => false
  | c :: _ => !c.isDigit && (asmRegister cs).isNone && (asmMnemonic cs).isNone

/-- An operand. -/
def asmOperand (cs : List Char) : Option AsmOperand :=
  match asmRegister cs with
  | some i => some (.register i)
  | none =>
    match asmNumeral cs with
    | some n => some (.numeral n)
    | none => if asmLabelName cs then some (.label cs) else none

/-- The part of a line after its label. -/
def asmStatement : List AsmToken → Option (Option (Mnemonic × List AsmOperand))
  | [] => some none
  | [.word m] => (asmMnemonic m).map fun m => some (m, [])
  | [.word m, .word x] =>
    match asmMnemonic m, asmOperand x with
    | some m, some x => some (some (m, [x]))
    | _, _ => none
  | [.word m, .word x, .comma, .word y] =>
    match asmMnemonic m, asmOperand x, asmOperand y with
    | some m, some x, some y => some (some (m, [x, y]))
    | _, _, _ => none
  | _ => none

/-- A line of text parsed by the grammar of R72. -/
def asmLine (text : List Char) : Option AsmLine :=
  match asmTokens [] text with
  | some (.word l :: .colon :: rest) =>
    if asmLabelName l then (asmStatement rest).map fun st => ⟨some l, st⟩ else none
  | some ts => (asmStatement ts).map fun st => ⟨none, st⟩
  | none => none

/-- How many bytes a line assembles to (R60). -/
def AsmLine.length (l : AsmLine) : Nat :=
  match l.statement with
  | some (m, _) => m.format.operandCount + 1
  | none => 0

/-- The labels with the address each stands for: that of the next instruction byte. -/
def asmLabels (addr : Nat) : List AsmLine → List (List Char × Nat)
  | [] => []
  | l :: ls =>
    match l.label with
    | some name => (name, addr) :: asmLabels (addr + l.length) ls
    | none => asmLabels (addr + l.length) ls

/-- The byte of an immediate: a numeral 0 to 255, or a label that is defined exactly once, at such an address. -/
def asmImmediate (labels : List (List Char × Nat)) : AsmOperand → Option Byte
  | .register _ => none
  | .numeral n => if n ≤ 255 then some (Byte.narrow n) else none
  | .label name =>
    match labels.filter fun l => l.1 == name with
    | [(_, a)] => if a ≤ 255 then some (Byte.narrow a) else none
    | _ => none

/-- The instruction of a mnemonic and its operands: registers everywhere but for LDI's immediate. -/
def asmInstr (labels : List (List Char × Nat)) (m : Mnemonic) (ops : List AsmOperand) : Option Instr :=
  match m, m.format, ops with
  | .ldi, _, [.register i, x] => (asmImmediate labels x).map fun v => .ldi (regOperand i) v
  | .ldi, _, _ => none
  | m, .op0, [] => some (m.instr 0 0)
  | m, .op1, [.register i] => some (m.instr (regOperand i) 0)
  | m, .op2, [.register i, .register j] => some (m.instr (regOperand i) (regOperand j))
  | _, _, _ => none

/-- The bytes of parsed lines. -/
def asmBytes (labels : List (List Char × Nat)) : List AsmLine → Option (List Byte)
  | [] => some []
  | l :: ls =>
    match l.statement with
    | none => asmBytes labels ls
    | some (m, ops) =>
      match asmInstr labels m ops, asmBytes labels ls with
      | some i, some bytes => some (encode i ++ bytes)
      | _, _ => none

/-- Every line parsed, or none. -/
def asmLines : List (List Char) → Option (List AsmLine)
  | [] => some []
  | t :: ts =>
    match asmLine t, asmLines ts with
    | some l, some ls => some (l :: ls)
    | _, _ => none

/-- A program text, one line of characters each, to the bytes it assembles to from address 0. -/
def assemble (text : List (List Char)) : Option (List Byte) :=
  match asmLines text with
  | some ls => asmBytes (asmLabels 0 ls) ls
  | none => none

end Sys2Proof.Machine
end

