-- ==== Sys2Proof/Machine/HostPort.lean ====
section
/-! DEFINITION. The host's side of the core (spec 70_reset_and_hazards.md R190 to R196): the transactions, what the host
can read, and the launch state of a program image. They act between steps; no step calls them (log entry 6). -/

namespace Sys2Proof.Machine

/-- The transactions that act on the core (R192). -/
inductive HostOp where
  | reset
  | load (addr byte : Byte)
  | start
  deriving DecidableEq, Repr

/-- The effect of a transaction (R190, R192, R193, R194): RESET always, LOAD and START only while IDLE, else ignored. -/
def State.transact (s : State) : HostOp → State
  | .reset => State.reset
  | .load addr byte => if s.rs = .idle then s.memWrite addr byte else s
  | .start => if s.rs = .idle then s.started else s

/-- What the host reads by the status transaction, always (R192), with the codes of R23 and R25. -/
structure Status where
  rs : BitVec 3
  badop : Byte
  cause : BitVec 2
  info : Byte
  deriving DecidableEq, Repr

/-- The status transaction (R192); it changes nothing. -/
def State.status (s : State) : Status := ⟨s.rs.code, s.badop, s.cause.code, s.info⟩

/-- What the host reads by the inspect transaction (R192). -/
structure Inspection where
  mem : Memory
  x : Vector Byte 8
  pc : Byte
  fl : Byte
  deriving DecidableEq, Repr

/-- The inspect transaction (R192): allowed while the core is not RUNNING; it changes nothing. -/
def State.inspect (s : State) : Option Inspection :=
  if s.rs = .running then none else some ⟨s.mem, s.x, s.pc, s.fl⟩

/-- LOAD of each byte of an image at successive addresses (R193). -/
def State.loadImage (a : Byte) : List Byte → State → State
  | [], s => s
  | v :: rest, s => State.loadImage (a + 1) rest (s.transact (.load a v))

/-- `Launch(p)` (R195): RESET, LOAD from address 0, START. An image of more than 256 bytes is refused (R193, D13). -/
def launch (image : List Byte) : Option State :=
  if image.length ≤ Config.memSize then some ((State.loadImage 0 image State.reset).transact .start) else none

end Sys2Proof.Machine
end

