-- ==== Sys2Proof/Safety.lean ====
section
/-! DEFINITION. How a run ends and what a safe run is (spec 40_cycle.md R90; 60_exceptions.md R166, R174;
70_reset_and_hazards.md R196): HALTED is the one end that finished as intended, STOPPED is a clean end that a claim may
accept or forbid, FAULTED is never acceptable. -/

namespace Sys2Proof.Machine

/-- The run has ended (R196). -/
def State.ended (s : State) : Bool :=
  match s.rs with
  | .halted | .stopped | .faulted => true
  | .idle | .running => false

/-- The run finished as intended (R174). -/
def State.finished (s : State) : Bool := decide (s.rs = .halted)

/-- The run ended in the clean stop of an unknown opcode (R174). -/
def State.stoppedCleanly (s : State) : Bool := decide (s.rs = .stopped)

/-- The run has gone wrong (R166, R174). -/
def State.wentWrong (s : State) : Bool := decide (s.rs = .faulted)

/-- The states the core can be in: after reset, after any host transaction, after any step (10_state.md R33). -/
inductive Reachable : State → Prop where
  | reset : Reachable State.reset
  | transact {s : State} (op : HostOp) (h : Reachable s) : Reachable (s.transact op)
  | step {s t : State} (h : Reachable s) (taken : Sys2Proof.Machine.step s = .next t) : Reachable t

/-- The opcode bytes of this hardware (30_encoding.md R66), written out. -/
def opcodeBytes : List Byte := [0x82, 0x47, 0x01, 0xA2, 0xA0, 0x45, 0x46, 0x50, 0x11, 0xA7, 0x54, 0x55, 0x56]

/-- What the registers that record how a run stands say in each run status (10_state.md R23 to R25; 60_exceptions.md
R161): nothing before an end; at a halt `PC` is at a HLT; at a stop `BADOP` is the unknown byte `PC` is at; at a fault
`INFO` is the `PC`, or the operand byte that is no register index. -/
def State.recordsOk (s : State) : Prop :=
  match s.rs with
  | .idle => s.badop = 0 ∧ s.cause = .none ∧ s.info = 0 ∧ s.pc = 0 ∧ s.fl = 0 ∧ s.out = []
  | .running => s.badop = 0 ∧ s.cause = .none ∧ s.info = 0
  | .halted => s.badop = 0 ∧ s.cause = .none ∧ s.info = 0 ∧ s.pc.toNat ≤ 253 ∧ s.memRead s.pc = 0x01
  | .stopped => s.cause = .none ∧ s.info = 0 ∧ s.pc.toNat ≤ 253 ∧ s.badop = s.memRead s.pc ∧ s.badop ∉ opcodeBytes
  | .faulted => s.badop = 0 ∧ (s.cause = .address ∧ s.info = s.pc ∧ 253 ≤ s.pc.toNat ∨
      s.cause = .regIndex ∧ 7 < s.info.toNat ∧ s.pc.toNat ≤ 253)

/-- The invariant of the machine (10_state.md R33): memory in canonical form, `FL` one of 0, 1, 2, 4, and the records of
the run status. -/
structure State.Inv (s : State) : Prop where
  mem : s.mem.wf = true
  flags : s.fl = 0 ∨ s.fl = 1 ∨ s.fl = 2 ∨ s.fl = 4
  records : s.recordsOk

/-- A run from `s` is safe: no number of steps reaches a state that went wrong. -/
def SafeFrom (s : State) : Prop := ∀ (k : Nat) (t : State), Sys2Proof.core.run k s = .next t → t.wentWrong = false

/-- A run from `s` ends as intended within `k` steps, in the state `t`. -/
def FinishesIn (s : State) (k : Nat) (t : State) : Prop := Sys2Proof.core.run k s = .next t ∧ t.finished = true

end Sys2Proof.Machine
end

