-- ==== Sys2Proof/Certificates/Slice0/Obligations.lean ====
section
/-! DEFINITION. The statements about the model, each from the numbered rules of spec/. -/

open Sys2Proof Sys2Proof.Machine

namespace Sys2Proof.Statements

/-- `s` with AddressFault raised at its `PC` and nothing else changed (60_exceptions.md R161, R166). -/
def addressFault (s : State) : StepOutcome := .next { s with cause := .address, info := s.pc, rs := .faulted }

/-- `s` with RegisterIndexFault raised for operand byte `v` and nothing else changed (R161, R166). -/
def indexFault (v : Byte) (s : State) : StepOutcome := .next { s with cause := .regIndex, info := v, rs := .faulted }

/-- The registers outside `l` hold what they held. -/
def RegsKeptBut (l : List (Fin 8)) (s t : State) : Prop := ∀ j, j ∉ l → t.reg j = s.reg j

/-- Every cell reads as it did. -/
def MemKept (s t : State) : Prop := ∀ c, t.memRead c = s.memRead c

/-- Every cell but `a` reads as it did. -/
def MemKeptBut (a : Byte) (s t : State) : Prop := ∀ c, c ≠ a → t.memRead c = s.memRead c

/-- The status registers RS, BADOP, CAUSE and INFO hold what they held. -/
def StatusKept (s t : State) : Prop := t.rs = s.rs ∧ t.badop = s.badop ∧ t.cause = s.cause ∧ t.info = s.info

/-- A running core whose `PC` passes the fetch range check. -/
def Fetches (s : State) : Prop := s.rs = .running ∧ s.pc.toNat ≤ 253

/-- A running core that fetches bytes which decode to `i`. -/
def RunsAt (s : State) (i : Instr) : Prop := Fetches s ∧ ∃ rest, decode s.fetched = .ok (i, rest)

/-- The faults of an instruction without operands: AddressFault if `PC >= 254`. -/
def TrapsWithoutOperands (i : Instr) : Prop :=
  ∀ s : State, s.rs = .running → 254 ≤ s.pc.toNat → exec i s = addressFault s

/-- The faults of a 2-byte instruction on one register: AddressFault if `PC >= 254`, else RegisterIndexFault(a) if
`a > 7`. -/
def TrapsOnOneRegister (i : Byte → Instr) : Prop :=
  ∀ (a : Byte) (s : State), s.rs = .running →
    (254 ≤ s.pc.toNat → exec (i a) s = addressFault s) ∧
    (s.pc.toNat ≤ 253 → 7 < a.toNat → exec (i a) s = indexFault a s)

/-- The faults of a 3-byte instruction on two registers, in the order of the checks (40_cycle.md R88): AddressFault if
`PC >= 254`, RegisterIndexFault(a), RegisterIndexFault(b), AddressFault at `PC = 253`. -/
def TrapsOnTwoRegisters (i : Byte → Byte → Instr) : Prop :=
  ∀ (a b : Byte) (s : State), s.rs = .running →
    (254 ≤ s.pc.toNat → exec (i a b) s = addressFault s) ∧
    (s.pc.toNat ≤ 253 → 7 < a.toNat → exec (i a b) s = indexFault a s) ∧
    (s.pc.toNat ≤ 253 → a.toNat ≤ 7 → 7 < b.toNat → exec (i a b) s = indexFault b s) ∧
    (s.pc.toNat = 253 → a.toNat ≤ 7 → b.toNat ≤ 7 → exec (i a b) s = addressFault s)

/-- The registers each instruction writes when it has its effect (10_state.md R14), by operand byte. -/
def registersWritten : Instr → List Byte
  | .ldi a _ => [a]
  | .mul a _ => [a]
  | .add a _ => [a]
  | .push _ => [7]
  | .pop a => [a, 7]
  | .call _ => [7]
  | .ret => [7]
  | .prn _ => []
  | .hlt => []
  | .cmp _ _ => []
  | .jmp _ => []
  | .jeq _ => []
  | .jne _ => []

/-- Instructions executed one after another, without the fetch. -/
def execSeq : List Instr → State → StepOutcome
  | [], s => .next s
  | i :: is, s =>
    match exec i s with
    | .next t => execSeq is t
    | .fault r => .fault r
    | .refused r => .refused r

/-- What can happen to the core between two resets: a step, or a transaction other than RESET. -/
inductive Event where
  | step
  | load (addr byte : Byte)
  | start

/-- A state after an event. -/
def after (s : State) : Event → StepOutcome
  | .step => step s
  | .load addr byte => .next (s.transact (.load addr byte))
  | .start => .next (s.transact .start)

/-- A state after a sequence of events. -/
def afterAll (s : State) : List Event → StepOutcome
  | [] => .next s
  | e :: es =>
    match after s e with
    | .next t => afterAll t es
    | .fault r => .fault r
    | .refused r => .refused r

/-- The bytes that three cells read as, from `pc` on, once `v` has been stored in cell `a`. -/
def fetchedAfterStore (s : State) (a v pc : Byte) : List Byte :=
  [pc, pc + 1, pc + 2].map fun c => if c = a then v else s.memRead c

/-- The spelling of a mnemonic (30_encoding.md R72). -/
def mnemonicText : Mnemonic → List Char
  | .ldi => "LDI".toList
  | .prn => "PRN".toList
  | .hlt => "HLT".toList
  | .mul => "MUL".toList
  | .add => "ADD".toList
  | .push => "PUSH".toList
  | .pop => "POP".toList
  | .call => "CALL".toList
  | .ret => "RET".toList
  | .cmp => "CMP".toList
  | .jmp => "JMP".toList
  | .jeq => "JEQ".toList
  | .jne => "JNE".toList

/-- The spelling of a register: `Rn` for the operand byte `n` (R72). -/
def registerText (v : Byte) : List Char := 'R' :: Nat.toDigits 10 v.toNat

/-- The three spellings of an immediate: decimal, `0x` hexadecimal, `0b` binary (R72). -/
def numerals : List (Byte → List Char) :=
  [fun v => Nat.toDigits 10 v.toNat, fun v => '0' :: 'x' :: Nat.toDigits 16 v.toNat,
    fun v => '0' :: 'b' :: Nat.toDigits 2 v.toNat]

/-- The spelling of operands, in encoding order: the first is byte `a` (R72). -/
def operandTexts (immediate : Byte → List Char) : Instr → List (List Char)
  | .ldi a b => [registerText a, immediate b]
  | .prn a => [registerText a]
  | .hlt => []
  | .mul a b => [registerText a, registerText b]
  | .add a b => [registerText a, registerText b]
  | .push a => [registerText a]
  | .pop a => [registerText a]
  | .call a => [registerText a]
  | .ret => []
  | .cmp a b => [registerText a, registerText b]
  | .jmp a => [registerText a]
  | .jeq a => [registerText a]
  | .jne a => [registerText a]

/-- A line with a mnemonic and its operands, no label and no comment (R72). -/
def lineText (mnemonic : List Char) : List (List Char) → List Char
  | [] => mnemonic
  | [a] => mnemonic ++ ' ' :: a
  | a :: b :: _ => mnemonic ++ ' ' :: a ++ ',' :: ' ' :: b

/-- An instruction as a line of assembly text (R72). -/
def spelling (immediate : Byte → List Char) (i : Instr) : List Char :=
  lineText (mnemonicText i.mnemonic) (operandTexts immediate i)

/-- A name that can be a label (log entry 13). -/
def IsLabel (name : List Char) : Prop :=
  asmLabelName name = true ∧ ∀ c ∈ name, c.isAlphanum = true ∨ c = '_'

end Sys2Proof.Statements

open Sys2Proof.Statements

/-! ## Encoding -/

/-- For every lawful opcode map (R67) and every implemented instruction, with every operand at every value, decoding its
encoding gives it back with whatever bytes follow. -/
def Obligations.DecodeOfEncodeForEveryLawfulMap : Prop :=
  ∀ c : Config, c.Lawful → ∀ i : Instr, c.implements i.mnemonic = true → ∀ rest : List Byte,
    decodeWith c (encodeWith c i ++ rest) = .ok (i, rest)

/-- Bytes that decode are exactly the encoding of what they decode to, followed by what the decoder leaves (R61, R63). -/
def Obligations.DecodedBytesAreAnEncoding : Prop :=
  ∀ (c : Config) (bytes rest : List Byte) (i : Instr), decodeWith c bytes = .ok (i, rest) →
    bytes = encodeWith c i ++ rest ∧ c.implements i.mnemonic = true

/-- Exactly the bytes outside the thirteen are unknown opcodes, 243 of them, 0x00 and 0xFF among them (R68). -/
def Obligations.EveryOtherByteIsUnknown : Prop :=
  (∀ (b : Byte) (rest : List Byte), decode (b :: rest) = .error (.unknownOpcode b) ↔ b ∉ opcodeBytes) ∧
  ((List.range 256).filter fun n => decide (Byte.narrow n ∉ opcodeBytes)).length = 243 ∧
  (0x00 : Byte) ∉ opcodeBytes ∧ (0xFF : Byte) ∉ opcodeBytes

/-- The words the spec writes out decode to the instructions it says (R74 and the examples of R100 to R144). The opcode
bytes are the spec's general knowledge (decision D1), log entry 1. -/
def Obligations.SpecWordsDecode : Prop :=
  decode [0x82, 0x00, 0x08] = .ok (.ldi 0 8, []) ∧
  decode [0x47, 0x00] = .ok (.prn 0, []) ∧
  decode [0x01] = .ok (.hlt, []) ∧
  decode [0xA2, 0x00, 0x01] = .ok (.mul 0 1, []) ∧
  decode [0xA0, 0x02, 0x03] = .ok (.add 2 3, []) ∧
  decode [0x45, 0x00] = .ok (.push 0, []) ∧
  decode [0x46, 0x01] = .ok (.pop 1, []) ∧
  decode [0x50, 0x01] = .ok (.call 1, []) ∧
  decode [0x11] = .ok (.ret, []) ∧
  decode [0xA7, 0x00, 0x01] = .ok (.cmp 0 1, []) ∧
  decode [0x54, 0x04] = .ok (.jmp 4, []) ∧
  decode [0x55, 0x02] = .ok (.jeq 2, []) ∧
  decode [0x56, 0x04] = .ok (.jne 4, [])

/-- Under `JCOND_WIRED = false` the bytes 0x55 and 0x56 are unknown opcodes; on this hardware they are JEQ and JNE (R71,
decision D2, log entry 9). -/
def Obligations.UnwiredJumpsAreUnknown : Prop :=
  ∀ (a : Byte) (rest : List Byte),
    decode (0x55 :: a :: rest) = .ok (.jeq a, rest) ∧ decode (0x56 :: a :: rest) = .ok (.jne a, rest) ∧
    decodeWith { coreConfig with jcondWired := false } (0x55 :: rest) = .error (.unknownOpcode 0x55) ∧
    decodeWith { coreConfig with jcondWired := false } (0x56 :: rest) = .error (.unknownOpcode 0x56)

/-- Fetched bytes beyond an instruction's operands do not matter to what is decoded, whatever they are (R70). -/
def Obligations.BytesAfterAShortInstructionDoNotMatter : Prop :=
  ∀ (ir a b : Byte) (i : Instr) (rest : List Byte), decode [ir, a, b] = .ok (i, rest) →
    (i.mnemonic.format = .op0 → ∀ a' b' : Byte, decode [ir, a', b'] = .ok (i, [a', b'])) ∧
    (i.mnemonic.format = .op1 → ∀ b' : Byte, decode [ir, a, b'] = .ok (i, [b']))

/-- The two alternatives the spec describes and does not take: under `TOP_POLICY = wrap` no range check fails (D6), and
under `REGIDX_POLICY = mask` an operand names the register of its low three bits (D8). Log entry 9. -/
def Obligations.AlternativePolicies : Prop :=
  (∀ pc : Byte, fetchCheck .wrap pc = .ok () ∧ ∀ len : Nat, advanceCheck .wrap pc len = .ok ()) ∧
  (∀ v : Byte, ∃ i : Fin 8, regIndex .mask v = .ok i ∧ i.val = v.toNat % 8)

/-! ## Memory and the machine around an instruction -/

/-- Two memories in canonical form that read alike at every address are the same data (R40, R55). The form is the
model's, log entry 12. -/
def Obligations.CanonicalMemoryIsItsReads : Prop :=
  ∀ m m' : Memory, m.wf = true → m'.wf = true → (∀ a : Byte, m.read a = m'.read a) → m = m'

/-- A step fetches the cells at `PC`, `PC + 1`, `PC + 2`, and runs the instruction they decode to, with nothing added
around it (R82, R83, R86). -/
def Obligations.StepRunsTheDecodedInstruction : Prop :=
  ∀ (s : State) (i : Instr), RunsAt s i →
    s.fetched = [s.memRead s.pc, s.memRead (s.pc + 1), s.memRead (s.pc + 2)] ∧ step s = exec i s

/-- Placing an opcode-table word where the next step fetches makes the next step run the instruction it decodes to. The
placing is the model's, log entry 7, and stands for LOAD and START (R193, R194). -/
def Obligations.PlacedWordRunsNext : Prop :=
  ∀ (s : State) (nbits w : Nat) (i : Instr), s.mem.wf = true → decodeTableWord nbits w = some i →
    step (s.withFetchWord nbits w) = exec i (s.withFetchWord nbits w)

/-- A step is taken at every running core and always answers a next state: no fault, no refusal of the model, nothing to
wait for (R90, R206). In a core that is not running nothing changes (R23), log entries 2 and 4. -/
def Obligations.EveryStepAnswersANextState : Prop :=
  ∀ s : State, ∃ t : State, step s = .next t ∧ (s.rs ≠ .running → t = s)

/-- The one event of a step is the first of the list of R169, whose order beyond the first two is decision D17: fetch
range, unknown opcode, register index a, register index b, advance range, and only then the instruction's own effect,
which is what its meaning `exec` answers for the decoded instruction, with no fault. Stated on the bytes in memory. -/
def Obligations.EventsInPriorityOrder : Prop :=
  ∀ (s : State) (ir a b : Byte), s.rs = .running → ir = s.memRead s.pc → a = s.memRead (s.pc + 1) →
    b = s.memRead (s.pc + 2) →
    (254 ≤ s.pc.toNat → step s = addressFault s) ∧
    (s.pc.toNat ≤ 253 → ir ∉ opcodeBytes → step s = .next { s with badop := ir, rs := .stopped }) ∧
    (s.pc.toNat ≤ 253 → ir ∈ [0x82, 0x47, 0xA2, 0xA0, 0x45, 0x46, 0x50, 0xA7, 0x54, 0x55, 0x56] → 7 < a.toNat →
      step s = indexFault a s) ∧
    (s.pc.toNat ≤ 253 → ir ∈ [0xA2, 0xA0, 0xA7] → a.toNat ≤ 7 → 7 < b.toNat → step s = indexFault b s) ∧
    (s.pc.toNat = 253 → ir ∈ [0x82, 0xA2, 0xA0, 0xA7] → a.toNat ≤ 7 → ir = 0x82 ∨ b.toNat ≤ 7 →
      step s = addressFault s) ∧
    (s.pc.toNat ≤ 253 → ir ∈ [0x01, 0x11] →
      ∃ i rest t, decode [ir, a, b] = .ok (i, rest) ∧ step s = exec i s ∧ exec i s = .next t ∧
        t.rs = (if ir = 0x01 then .halted else .running) ∧ t.cause = s.cause) ∧
    (s.pc.toNat ≤ 253 → ir ∈ [0x47, 0x45, 0x46, 0x50, 0x54, 0x55, 0x56] → a.toNat ≤ 7 →
      ∃ i rest t, decode [ir, a, b] = .ok (i, rest) ∧ step s = exec i s ∧ exec i s = .next t ∧
        t.rs = .running ∧ t.cause = s.cause) ∧
    (s.pc.toNat ≤ 252 → ir ∈ [0x82, 0xA2, 0xA0, 0xA7] → a.toNat ≤ 7 → ir = 0x82 ∨ b.toNat ≤ 7 →
      ∃ i rest t, decode [ir, a, b] = .ok (i, rest) ∧ step s = exec i s ∧ exec i s = .next t ∧
        t.rs = .running ∧ t.cause = s.cause)

/-- A run ends in exactly three ways, and the step that ends it changes nothing but the status registers (R88, R90;
decisions D9, D10, D11): a HLT, an unknown opcode, or a fault with what it records. -/
def Obligations.RunEndsInThreeWays : Prop :=
  ∀ s t : State, s.rs = .running → step s = .next t → t.rs ≠ .running →
    (RunsAt s .hlt ∧ t = { s with rs := .halted }) ∨
    (Fetches s ∧ s.memRead s.pc ∉ opcodeBytes ∧ t = { s with badop := s.memRead s.pc, rs := .stopped }) ∨
    (253 ≤ s.pc.toNat ∧ t = { s with cause := .address, info := s.pc, rs := .faulted }) ∨
    (Fetches s ∧ ∃ v : Byte, 7 < v.toNat ∧ (v = s.memRead (s.pc + 1) ∨ v = s.memRead (s.pc + 2)) ∧
      t = { s with cause := .regIndex, info := v, rs := .faulted })

/-- A cell that holds 0 stops the core at its address, with `BADOP = 0` (R204, from R55 and R163; decision D10). -/
def Obligations.RunningIntoAnUnwrittenCellStops : Prop :=
  ∀ s : State, Fetches s → s.memRead s.pc = 0 →
    ∃ t, step s = .next t ∧ t.rs = .stopped ∧ t.badop = 0 ∧ t.pc = s.pc ∧ t.cause = s.cause ∧ t.info = s.info ∧
      RegsKeptBut [] s t ∧ MemKept s t ∧ t.fl = s.fl ∧ t.out = s.out

/-- Terminal means terminal (R168): once the core has halted, stopped or faulted, no sequence of steps and of
transactions other than RESET changes anything, and RESET leaves the state after reset. -/
def Obligations.TerminalMeansTerminal : Prop :=
  ∀ s : State, s.rs = .halted ∨ s.rs = .stopped ∨ s.rs = .faulted →
    (∀ es : List Event, afterAll s es = .next s) ∧ s.transact .reset = State.reset

/-! ## What each instruction does -/

/-- LDI (R100): its encoding, its effect and what it leaves unchanged, its faults, and that an LDI then a PRN of the same
register emit exactly the immediate. As in the statements below, the opcode byte is the spec's decision D1 (log entry 1),
the AddressFault D6 and D7, the RegisterIndexFault D8. -/
def Obligations.LdiLoadsItsImmediate : Prop :=
  (∀ a b : Byte, encode (.ldi a b) = [0x82, a, b]) ∧
  (∀ (i : Fin 8) (b : Byte) (s : State), s.rs = .running → s.pc.toNat ≤ 252 →
    ∃ t, exec (.ldi (regOperand i) b) s = .next t ∧ t.reg i = b ∧ t.pc.toNat = s.pc.toNat + 3 ∧
      RegsKeptBut [i] s t ∧ MemKept s t ∧ t.fl = s.fl ∧ t.out = s.out ∧ StatusKept s t) ∧
  (∀ (a b : Byte) (s : State), s.rs = .running →
    (254 ≤ s.pc.toNat → exec (.ldi a b) s = addressFault s) ∧
    (s.pc.toNat ≤ 253 → 7 < a.toNat → exec (.ldi a b) s = indexFault a s) ∧
    (s.pc.toNat = 253 → a.toNat ≤ 7 → exec (.ldi a b) s = addressFault s)) ∧
  (∀ (i : Fin 8) (b : Byte) (s : State), s.rs = .running → s.pc.toNat ≤ 250 →
    ∃ t u, exec (.ldi (regOperand i) b) s = .next t ∧ exec (.prn (regOperand i)) t = .next u ∧ u.out = s.out ++ [b])

/-- PRN (R101; that the port never refuses a byte is decision D12, log entry 10). -/
def Obligations.PrnEmitsTheRegister : Prop :=
  (∀ a : Byte, encode (.prn a) = [0x47, a]) ∧
  (∀ (i : Fin 8) (s : State), Fetches s →
    ∃ t, exec (.prn (regOperand i)) s = .next t ∧ t.out = s.out ++ [s.reg i] ∧ t.pc.toNat = s.pc.toNat + 2 ∧
      RegsKeptBut [] s t ∧ MemKept s t ∧ t.fl = s.fl ∧ StatusKept s t) ∧
  TrapsOnOneRegister .prn

/-- HLT (R102, R162): its encoding, its effect and what it leaves unchanged, that no later step changes anything, that
the two bytes fetched after it are ignored, and its fault. -/
def Obligations.HltHaltsAndKeepsAllElse : Prop :=
  encode .hlt = [0x01] ∧
  (∀ s : State, Fetches s →
    ∃ t, exec .hlt s = .next t ∧ t.rs = .halted ∧ t.pc = s.pc ∧ RegsKeptBut [] s t ∧ MemKept s t ∧ t.fl = s.fl ∧
      t.out = s.out ∧ t.badop = s.badop ∧ t.cause = s.cause ∧ t.info = s.info ∧ ∀ u, step t = .next u → u = t) ∧
  (∀ x y : Byte, decode [0x01, x, y] = .ok (.hlt, [x, y])) ∧
  TrapsWithoutOperands .hlt

/-- MUL (R114). -/
def Obligations.MulMultipliesModulo256 : Prop :=
  (∀ a b : Byte, encode (.mul a b) = [0xA2, a, b]) ∧
  (∀ (i j : Fin 8) (s : State), s.rs = .running → s.pc.toNat ≤ 252 →
    ∃ t, exec (.mul (regOperand i) (regOperand j)) s = .next t ∧
      (t.reg i).toNat = (s.reg i).toNat * (s.reg j).toNat % 256 ∧ t.pc.toNat = s.pc.toNat + 3 ∧
      RegsKeptBut [i] s t ∧ MemKept s t ∧ t.fl = s.fl ∧ t.out = s.out ∧ StatusKept s t) ∧
  TrapsOnTwoRegisters .mul

/-- ADD (R115). -/
def Obligations.AddAddsModulo256 : Prop :=
  (∀ a b : Byte, encode (.add a b) = [0xA0, a, b]) ∧
  (∀ (i j : Fin 8) (s : State), s.rs = .running → s.pc.toNat ≤ 252 →
    ∃ t, exec (.add (regOperand i) (regOperand j)) s = .next t ∧
      (t.reg i).toNat = ((s.reg i).toNat + (s.reg j).toNat) % 256 ∧ t.pc.toNat = s.pc.toNat + 3 ∧
      RegsKeptBut [i] s t ∧ MemKept s t ∧ t.fl = s.fl ∧ t.out = s.out ∧ StatusKept s t) ∧
  TrapsOnTwoRegisters .add

/-- CMP (R116): the whole of FL is overwritten with 1, 4 or 2, by the unsigned order of the two registers, and no step of
another instruction changes FL. -/
def Obligations.CmpSetsExactlyOneFlag : Prop :=
  (∀ a b : Byte, encode (.cmp a b) = [0xA7, a, b]) ∧
  (∀ (i j : Fin 8) (s : State), s.rs = .running → s.pc.toNat ≤ 252 →
    ∃ t, exec (.cmp (regOperand i) (regOperand j)) s = .next t ∧
      ((s.reg i).toNat = (s.reg j).toNat → t.fl = 0b00000001) ∧
      ((s.reg i).toNat < (s.reg j).toNat → t.fl = 0b00000100) ∧
      ((s.reg i).toNat > (s.reg j).toNat → t.fl = 0b00000010) ∧
      t.pc.toNat = s.pc.toNat + 3 ∧ RegsKeptBut [] s t ∧ MemKept s t ∧ t.out = s.out ∧ StatusKept s t) ∧
  (∀ s t : State, step s = .next t → t.fl ≠ s.fl → ∃ a b, RunsAt s (.cmp a b)) ∧
  TrapsOnTwoRegisters .cmp

/-- PUSH (R130, R132). With `a = 7` the value stored is the new stack pointer: the order of effects is decision D20. The
memory premise is the invariant's (log entry 12). -/
def Obligations.PushStoresBelowTheStackPointer : Prop :=
  (∀ a : Byte, encode (.push a) = [0x45, a]) ∧
  (∀ (i : Fin 8) (s : State), Fetches s → s.mem.wf = true →
    ∃ t, exec (.push (regOperand i)) s = .next t ∧ t.reg 7 = s.reg 7 - 1 ∧
      (t.reg 7).toNat = ((s.reg 7).toNat + 255) % 256 ∧
      t.memRead (s.reg 7 - 1) = (if i = 7 then s.reg 7 - 1 else s.reg i) ∧ MemKeptBut (s.reg 7 - 1) s t ∧
      t.pc.toNat = s.pc.toNat + 2 ∧ RegsKeptBut [7] s t ∧ t.fl = s.fl ∧ t.out = s.out ∧ StatusKept s t) ∧
  TrapsOnOneRegister .push

/-- POP (R131, R132). With `a = 7` the loaded byte is then incremented: the order of effects is decision D20. -/
def Obligations.PopLoadsFromTheStackPointer : Prop :=
  (∀ a : Byte, encode (.pop a) = [0x46, a]) ∧
  (∀ (i : Fin 8) (s : State), Fetches s →
    ∃ t, exec (.pop (regOperand i)) s = .next t ∧
      (i ≠ 7 → t.reg i = s.memRead (s.reg 7) ∧ t.reg 7 = s.reg 7 + 1) ∧
      (i = 7 → t.reg 7 = s.memRead (s.reg 7) + 1) ∧ t.pc.toNat = s.pc.toNat + 2 ∧
      RegsKeptBut [i, 7] s t ∧ MemKept s t ∧ t.fl = s.fl ∧ t.out = s.out ∧ StatusKept s t) ∧
  TrapsOnOneRegister .pop

/-- CALL (R140), whose masked decrement is decision D4; with `a = 7` the target is the new stack pointer (decision D20).
The memory premise is the invariant's (log entry 12). -/
def Obligations.CallPushesTheReturnAddress : Prop :=
  (∀ a : Byte, encode (.call a) = [0x50, a]) ∧
  (∀ (i : Fin 8) (s : State), Fetches s → s.mem.wf = true →
    ∃ t, exec (.call (regOperand i)) s = .next t ∧ t.reg 7 = s.reg 7 - 1 ∧
      (t.memRead (s.reg 7 - 1)).toNat = s.pc.toNat + 2 ∧ MemKeptBut (s.reg 7 - 1) s t ∧
      t.pc = (if i = 7 then s.reg 7 - 1 else s.reg i) ∧ RegsKeptBut [7] s t ∧ t.fl = s.fl ∧ t.out = s.out ∧
      StatusKept s t) ∧
  TrapsOnOneRegister .call

/-- RET (R141), whose masked increment is decision D4. -/
def Obligations.RetReturnsToTheStackTop : Prop :=
  encode .ret = [0x11] ∧
  (∀ s : State, Fetches s →
    ∃ t, exec .ret s = .next t ∧ t.pc = s.memRead (s.reg 7) ∧ t.reg 7 = s.reg 7 + 1 ∧
      RegsKeptBut [7] s t ∧ MemKept s t ∧ t.fl = s.fl ∧ t.out = s.out ∧ StatusKept s t) ∧
  TrapsWithoutOperands .ret

/-- JMP (R142). -/
def Obligations.JmpJumpsToTheRegister : Prop :=
  (∀ a : Byte, encode (.jmp a) = [0x54, a]) ∧
  (∀ (i : Fin 8) (s : State), Fetches s →
    ∃ t, exec (.jmp (regOperand i)) s = .next t ∧ t.pc = s.reg i ∧
      RegsKeptBut [] s t ∧ MemKept s t ∧ t.fl = s.fl ∧ t.out = s.out ∧ StatusKept s t) ∧
  TrapsOnOneRegister .jmp

/-- JEQ (R143), implemented by decisions D2 and D27; the operand is checked whether or not the jump is taken (D21). -/
def Obligations.JeqJumpsWhenEqual : Prop :=
  (∀ a : Byte, encode (.jeq a) = [0x55, a]) ∧
  (∀ (i : Fin 8) (s : State), Fetches s →
    ∃ t, exec (.jeq (regOperand i)) s = .next t ∧
      (s.fl.toNat % 2 = 1 → t.pc = s.reg i) ∧ (s.fl.toNat % 2 = 0 → t.pc.toNat = s.pc.toNat + 2) ∧
      RegsKeptBut [] s t ∧ MemKept s t ∧ t.fl = s.fl ∧ t.out = s.out ∧ StatusKept s t) ∧
  TrapsOnOneRegister .jeq

/-- JNE (R144), implemented by decisions D2 and D27; the operand is checked whether or not the jump is taken (D21). -/
def Obligations.JneJumpsWhenNotEqual : Prop :=
  (∀ a : Byte, encode (.jne a) = [0x56, a]) ∧
  (∀ (i : Fin 8) (s : State), Fetches s →
    ∃ t, exec (.jne (regOperand i)) s = .next t ∧
      (s.fl.toNat % 2 = 0 → t.pc = s.reg i) ∧ (s.fl.toNat % 2 = 1 → t.pc.toNat = s.pc.toNat + 2) ∧
      RegsKeptBut [] s t ∧ MemKept s t ∧ t.fl = s.fl ∧ t.out = s.out ∧ StatusKept s t) ∧
  TrapsOnOneRegister .jne

/-! ## The ALU -/

/-- The ALU (R110): its result or its flags, of the two registers named, written to `x[a]` or to FL and never both, and
nothing else but the advance of PC by 3. What any other operation raises is R113, R161 and R166 by decision D25, and its
place after the checks is the model's, log entry 8. -/
def Obligations.AluWritesARegisterOrTheFlags : Prop :=
  ∀ (op : AluOp) (i j : Fin 8) (s : State), s.rs = .running → s.pc.toNat ≤ 252 →
    ∃ t, aluStep op (regOperand i) (regOperand j) s = .next t ∧
      (op = .add → (t.reg i).toNat = ((s.reg i).toNat + (s.reg j).toNat) % 256 ∧ t.fl = s.fl ∧ RegsKeptBut [i] s t) ∧
      (op = .mul → (t.reg i).toNat = (s.reg i).toNat * (s.reg j).toNat % 256 ∧ t.fl = s.fl ∧ RegsKeptBut [i] s t) ∧
      (op = .cmp → RegsKeptBut [] s t ∧
        ((s.reg i).toNat = (s.reg j).toNat → t.fl = 1) ∧ ((s.reg i).toNat < (s.reg j).toNat → t.fl = 4) ∧
        ((s.reg i).toNat > (s.reg j).toNat → t.fl = 2)) ∧
      (op = .add ∨ op = .mul ∨ op = .cmp →
        MemKept s t ∧ t.out = s.out ∧ StatusKept s t ∧ t.pc.toNat = s.pc.toNat + 3) ∧
      (∀ ir, op = .other ir → t = { s with cause := .aluUnsupported, info := ir, rs := .faulted })

/-- The integer laws (R112): results modulo 256; overflow is silent; the comparison is unsigned. That the results are also
the two's-complement results is a sentence R112 marks as derived, by arithmetic modulo 256. -/
def Obligations.ArithmeticIsModulo256 : Prop :=
  ∀ va vb : Byte,
    (∃ v, alu .add va vb = .ok (.result v) ∧ v.toNat = (va.toNat + vb.toNat) % 256 ∧
      v.toInt = (va.toInt + vb.toInt).bmod 256) ∧
    (∃ v, alu .mul va vb = .ok (.result v) ∧ v.toNat = va.toNat * vb.toNat % 256 ∧
      v.toInt = (va.toInt * vb.toInt).bmod 256) ∧
    (∃ f, alu .cmp va vb = .ok (.flags f) ∧ (f = 1 ↔ va.toNat = vb.toNat) ∧ (f = 4 ↔ va.toNat < vb.toNat) ∧
      (f = 2 ↔ vb.toNat < va.toNat))

/-- An ALU operation other than ADD, MUL and CMP raises fault cause 3 with the opcode byte and has no effect (R113, R166;
that the cause exists is decision D25, its place after the checks log entry 8), and no step of any state raises it. -/
def Obligations.UnsupportedAluOperationIsNeverReached : Prop :=
  (∀ (ir va vb : Byte), alu (.other ir) va vb = .error ⟨.aluUnsupported, ir⟩) ∧
  (∀ s t : State, step s = .next t → t.cause = .aluUnsupported → s.cause = .aluUnsupported)

/-! ## Rules about the whole machine -/

/-- Which registers a step can change (R14): those the instruction it runs writes. -/
def Obligations.RegistersChangeByTheTable : Prop :=
  ∀ (s t : State) (j : Fin 8), step s = .next t → t.reg j ≠ s.reg j →
    ∃ i, RunsAt s i ∧ regOperand j ∈ registersWritten i

/-- What a step can change in memory (R41): a PUSH or a CALL, and the one cell below the stack pointer. -/
def Obligations.OnlyPushAndCallWriteMemory : Prop :=
  ∀ (s t : State) (c : Byte), s.mem.wf = true → step s = .next t → t.memRead c ≠ s.memRead c →
    c = s.reg 7 - 1 ∧ ∃ a, RunsAt s (.push a) ∨ RunsAt s (.call a)

/-- FL is written by CMP and reset only and read by JEQ and JNE only, bit 0 only (R20). A step that is no JEQ and no JNE
does the same to everything but FL whatever FL is, no step depends on more of FL than its bit 0, and what FL holds
reaches nothing but FL and PC. -/
def Obligations.FlagsAreWrittenByCmpAndReadByJumps : Prop :=
  (∀ s t : State, step s = .next t → t.fl ≠ s.fl → ∃ a b, RunsAt s (.cmp a b)) ∧
  (∀ (s : State) (op : HostOp), (s.transact op).fl = s.fl ∨ op = .reset ∧ (s.transact op).fl = 0) ∧
  (∀ (s t : State) (v : Byte), step s = .next t → (∀ a, ¬ RunsAt s (.jeq a)) → (∀ a, ¬ RunsAt s (.jne a)) →
    ∃ w, step { s with fl := v } = .next { t with fl := w }) ∧
  (∀ (s t : State) (v : Byte), step s = .next t → v.toNat % 2 = s.fl.toNat % 2 →
    ∃ w, step { s with fl := v } = .next { t with fl := w }) ∧
  (∀ (s t : State) (v : Byte), step s = .next t →
    ∃ w p, step { s with fl := v } = .next { t with fl := w, pc := p })

/-- The values of FL (R21): always 0, 1, 2 or 4; 0 after reset and until a CMP executes; 1, 2 or 4 after a CMP and from
then on. -/
def Obligations.FlagsHoldAtMostOneBit : Prop :=
  (∀ s : State, Reachable s → s.fl = 0 ∨ s.fl = 1 ∨ s.fl = 2 ∨ s.fl = 4) ∧
  State.reset.fl = 0 ∧
  (∀ (s t : State), step s = .next t → (∀ a b, ¬ RunsAt s (.cmp a b)) → t.fl = s.fl) ∧
  (∀ (s t : State) (a b : Byte), RunsAt s (.cmp a b) → step s = .next t → t.rs = .running →
    t.fl = 1 ∨ t.fl = 2 ∨ t.fl = 4) ∧
  (∀ (s t : State), step s = .next t → s.fl = 1 ∨ s.fl = 2 ∨ s.fl = 4 → t.fl = 1 ∨ t.fl = 2 ∨ t.fl = 4)

/-- OUT only grows, by the one byte of a PRN that has its effect (R27). -/
def Obligations.OutputGrowsByPrnOnly : Prop :=
  ∀ s t : State, step s = .next t →
    t.out = s.out ∨ ∃ i : Fin 8, RunsAt s (.prn (regOperand i)) ∧ t.out = s.out ++ [s.reg i]

/-- A jump (JMP, or JEQ or JNE when it is taken), a call or a return to 254 or 255 succeeds and the step after it faults
(R18, R81; decisions D6, D7). -/
def Obligations.TransferToTheTopFaultsOnTheNextStep : Prop :=
  ∀ (s : State) (i : Fin 8),
    (RunsAt s (.jmp (regOperand i)) → 254 ≤ (s.reg i).toNat →
      ∃ t, step s = .next t ∧ t.rs = .running ∧ t.pc = s.reg i ∧ step t = addressFault t) ∧
    (RunsAt s (.jeq (regOperand i)) → s.fl.toNat % 2 = 1 → 254 ≤ (s.reg i).toNat →
      ∃ t, step s = .next t ∧ t.rs = .running ∧ t.pc = s.reg i ∧ step t = addressFault t) ∧
    (RunsAt s (.jne (regOperand i)) → s.fl.toNat % 2 = 0 → 254 ≤ (s.reg i).toNat →
      ∃ t, step s = .next t ∧ t.rs = .running ∧ t.pc = s.reg i ∧ step t = addressFault t) ∧
    (RunsAt s (.call (regOperand i)) → 254 ≤ (if i = 7 then s.reg 7 - 1 else s.reg i).toNat →
      ∃ t, step s = .next t ∧ t.rs = .running ∧ t.pc = (if i = 7 then s.reg 7 - 1 else s.reg i) ∧
        step t = addressFault t) ∧
    (RunsAt s .ret → 254 ≤ (s.memRead (s.reg 7)).toNat →
      ∃ t, step s = .next t ∧ t.rs = .running ∧ t.pc = s.memRead (s.reg 7) ∧ step t = addressFault t)

/-- JEQ and JNE with the same FL and operand do opposite things: exactly one of them takes the target (R144). -/
def Obligations.JeqAndJneAreOpposite : Prop :=
  ∀ (s : State) (i : Fin 8), Fetches s → (s.reg i).toNat ≠ s.pc.toNat + 2 →
    ∃ t u, exec (.jeq (regOperand i)) s = .next t ∧ exec (.jne (regOperand i)) s = .next u ∧
      (t.pc = s.reg i ↔ u.pc ≠ s.reg i)

/-- A JMP to itself runs for ever and changes nothing (R90, R142). -/
def Obligations.SelfJumpRunsForEver : Prop :=
  ∀ (s : State) (i : Fin 8), RunsAt s (.jmp (regOperand i)) → s.reg i = s.pc →
    ∀ k : Nat, Sys2Proof.core.run k s = .next s

/-- A byte stored by one step, by PUSH or by CALL, is seen by the fetch of the very next step, wherever it lands among
the three cells fetched (R52, decision D16): on the opcode or on an operand of the instruction after a PUSH, or in the
code a CALL goes to. With `a = 7` a CALL goes to the very cell it stored its return address in. -/
def Obligations.StoreIsSeenByTheNextFetch : Prop :=
  ∀ (s : State) (i : Fin 8), s.mem.wf = true →
    (RunsAt s (.push (regOperand i)) →
      ∃ t, step s = .next t ∧ t.rs = .running ∧ t.pc.toNat = s.pc.toNat + 2 ∧
        t.fetched = fetchedAfterStore s (s.reg 7 - 1) (if i = 7 then s.reg 7 - 1 else s.reg i) (s.pc + 2)) ∧
    (RunsAt s (.call (regOperand i)) →
      ∃ t, step s = .next t ∧ t.rs = .running ∧ t.pc = (if i = 7 then s.reg 7 - 1 else s.reg i) ∧
        t.fetched = fetchedAfterStore s (s.reg 7 - 1) (s.pc + 2) t.pc) ∧
    (RunsAt s (.call (regOperand 7)) →
      ∃ t, step s = .next t ∧ t.fetched = [s.pc + 2, s.memRead (s.reg 7), s.memRead (s.reg 7 + 1)])

/-! ## The stack -/

/-- PUSH r then POP r2, as the bytes stand in memory (R133): the value and the stack pointer come back, for every
starting SP, if neither is register 7 and the store does not land on the POP. -/
def Obligations.PushThenPopRestores : Prop :=
  ∀ (s : State) (r r2 : Fin 8), s.rs = .running → s.mem.wf = true → r ≠ 7 → r2 ≠ 7 → s.pc.toNat ≤ 251 →
    s.memRead s.pc = 0x45 → s.memRead (s.pc + 1) = regOperand r →
    s.memRead (s.pc + 2) = 0x46 → s.memRead (s.pc + 3) = regOperand r2 →
    s.reg 7 - 1 ≠ s.pc + 2 → s.reg 7 - 1 ≠ s.pc + 3 →
    ∃ t u, step s = .next t ∧ step t = .next u ∧ u.reg r2 = s.reg r ∧ u.reg 7 = s.reg 7 ∧
      u.pc.toNat = s.pc.toNat + 4 ∧ RegsKeptBut [r2] s u ∧ MemKeptBut (s.reg 7 - 1) s u

/-- Any number of PUSHes, then POPs of the same registers in reverse order, restore every register and the stack pointer
and leave every cell outside the pushed ones as it was (R133, last in first out). -/
def Obligations.NestedPushesAndPopsRestoreAll : Prop :=
  ∀ (rs : List (Fin 8)) (s : State), s.rs = .running → s.mem.wf = true → (7 : Fin 8) ∉ rs →
    s.pc.toNat + 4 * rs.length ≤ 255 →
    ∃ t, execSeq ((rs.map fun r => Instr.push (regOperand r)) ++ (rs.reverse.map fun r => Instr.pop (regOperand r))) s
        = .next t ∧
      RegsKeptBut [] s t ∧ t.pc.toNat = s.pc.toNat + 4 * rs.length ∧ t.fl = s.fl ∧ t.out = s.out ∧ StatusKept s t ∧
      (∀ c : Byte, (∀ k : Nat, k < rs.length → c ≠ s.reg 7 - Byte.narrow (k + 1)) → t.memRead c = s.memRead c)

/-- The CALL and RET pair (R146, decision D4): after a CALL, whatever ran in between, a RET that finds the stack pointer
and the return cell as the CALL left them goes on after the CALL with the stack pointer from before it. -/
def Obligations.RetUndoesCall : Prop :=
  ∀ (s t : State) (i : Fin 8), Fetches s → s.mem.wf = true → exec (.call (regOperand i)) s = .next t →
    t.reg 7 = s.reg 7 - 1 ∧ t.memRead (s.reg 7 - 1) = s.pc + 2 ∧
    ∀ u : State, Fetches u → u.reg 7 = s.reg 7 - 1 → u.memRead (s.reg 7 - 1) = s.pc + 2 →
      ∃ v, exec .ret u = .next v ∧ v.pc.toNat = s.pc.toNat + 2 ∧ v.reg 7 = s.reg 7

/-! ## Reset, the host, and the invariant -/

/-- What RESET leaves, from any state (R31, R190; RS, BADOP, CAUSE, INFO and OUT by decision D14). -/
def Obligations.ResetLeavesTheResetValues : Prop :=
  ∀ s : State, ∃ r, s.transact .reset = r ∧ (∀ c, r.memRead c = 0) ∧ (∀ j : Fin 8, j ≠ 7 → r.reg j = 0) ∧
    r.reg 7 = 0xF4 ∧ r.pc = 0 ∧ r.fl = 0 ∧ r.rs = .idle ∧ r.rs.code = 0 ∧ r.badop = 0 ∧ r.cause.code = 0 ∧
    r.info = 0 ∧ r.out = []

/-- The transactions (R192, R193, R194; decision D13): LOAD writes one cell while IDLE, START makes an IDLE core run and
changes nothing else, both are ignored in every other run status, and the host reads status always, by the codes of R23
and R25 (decision D11), and the rest while the core is not running. -/
def Obligations.HostTransactions : Prop :=
  (∀ (s : State) (a v : Byte), s.rs = .idle → s.mem.wf = true →
    ∃ t, s.transact (.load a v) = t ∧ t.memRead a = v ∧ MemKeptBut a s t ∧ RegsKeptBut [] s t ∧ t.pc = s.pc ∧
      t.fl = s.fl ∧ t.out = s.out ∧ StatusKept s t) ∧
  (∀ s : State, s.rs = .idle → s.transact .start = { s with rs := .running }) ∧
  (∀ (s : State) (a v : Byte), s.rs ≠ .idle → s.transact (.load a v) = s ∧ s.transact .start = s) ∧
  (∀ s : State, s.status = ⟨s.rs.code, s.badop, s.cause.code, s.info⟩) ∧
  (∀ s : State, (s.status.rs = 0 ↔ s.rs = .idle) ∧ (s.status.rs = 1 ↔ s.rs = .running) ∧
    (s.status.rs = 2 ↔ s.rs = .halted) ∧ (s.status.rs = 3 ↔ s.rs = .stopped) ∧ (s.status.rs = 4 ↔ s.rs = .faulted)) ∧
  (∀ s : State, (s.status.cause = 0 ↔ s.cause = .none) ∧ (s.status.cause = 1 ↔ s.cause = .address) ∧
    (s.status.cause = 2 ↔ s.cause = .regIndex) ∧ (s.status.cause = 3 ↔ s.cause = .aluUnsupported)) ∧
  (∀ s : State, s.inspect = if s.rs = .running then none else some ⟨s.mem, s.x, s.pc, s.fl⟩)

/-- START (R194): it changes RS and nothing else, and the first step then fetches at `PC = 0`, since in every reachable
IDLE state `PC` is 0. -/
def Obligations.StartRunsFromAddressZero : Prop :=
  ∀ s : State, Reachable s → s.rs = .idle →
    s.transact .start = { s with rs := .running } ∧ s.pc = 0 ∧
    (s.transact .start).fetched = [s.memRead 0, s.memRead 1, s.memRead 2]

/-- The launch state of an image (R193, R195): the image from address 0, 0 above it, everything else as after reset but
RS = RUNNING; an image of more than 256 bytes is refused (decision D13). -/
def Obligations.LaunchState : Prop :=
  ∀ image : List Byte,
    (256 < image.length → launch image = none) ∧
    (image.length ≤ 256 → ∃ s, launch image = some s ∧
      (∀ c : Byte, s.memRead c = image.getD c.toNat 0) ∧ (∀ j : Fin 8, s.reg j = if j = 7 then 0xF4 else 0) ∧
      s.pc = 0 ∧ s.fl = 0 ∧ s.rs = .running ∧ s.badop = 0 ∧ s.cause = .none ∧ s.info = 0 ∧ s.out = [] ∧
      s.mem.wf = true ∧ Reachable s)

/-- The invariant of the machine holds after reset (R33). -/
def Obligations.ResetMeetsTheInvariant : Prop := State.reset.Inv

/-- Every step from every state keeps the invariant of the machine (R33). -/
def Obligations.EveryStepKeepsTheInvariant : Prop :=
  ∀ s t : State, s.Inv → step s = .next t → t.Inv

/-- Every host transaction keeps the invariant of the machine (R33, R192). -/
def Obligations.EveryTransactionKeepsTheInvariant : Prop :=
  ∀ (s : State) (op : HostOp), s.Inv → (s.transact op).Inv

/-- In every reachable state (R33): the invariant, RS among its codes, CAUSE 0 unless FAULTED, BADOP 0 unless STOPPED, and
a step of an ended run changes nothing (the step of a core that is not running is log entry 2). -/
def Obligations.ReachableStatesMeetTheInvariant : Prop :=
  ∀ s : State, Reachable s →
    s.Inv ∧ s.rs.code.toNat ≤ 4 ∧ (s.rs ≠ .faulted → s.cause.code = 0) ∧ (s.rs ≠ .stopped → s.badop = 0) ∧
    (s.ended = true → step s = .next s)

/-! ## Assembly -/

/-- What a text assembles to is the encoding of well-formed instructions, one after another (R72, decision D19): a
register index above 7 has no spelling, and there are no pseudo-instructions. And the other way: well-formed instructions,
spelled one a line with their immediates in decimal, hexadecimal or binary, assemble to their encodings; and a label used
as an immediate, before or after the line it labels, is the address of the next instruction byte. -/
def Obligations.AssemblyIsWellFormedInstructions : Prop :=
  (∀ (text : List (List Char)) (bytes : List Byte), assemble text = some bytes →
    ∃ is : List Instr, (∀ i ∈ is, i.wellFormed = true) ∧ bytes = is.flatMap encode) ∧
  ∀ immediate ∈ numerals,
    (∀ is : List Instr, (∀ i ∈ is, i.wellFormed = true) →
      assemble (is.map (spelling immediate)) = some (is.flatMap encode)) ∧
    (∀ (is is' is'' : List Instr) (r : Fin 8) (name : List Char), IsLabel name →
      (∀ i ∈ is ++ is' ++ is'', i.wellFormed = true) →
      let ldi := lineText (mnemonicText .ldi) [registerText (regOperand r), name]
      let text := fun l : List Instr => l.map (spelling immediate)
      (∀ a : Byte, a.toNat = (is.flatMap encode).length → assemble (text is ++ (name ++ [':']) :: text is' ++ ldi :: text is'')
        = some ((is ++ is' ++ .ldi (regOperand r) a :: is'').flatMap encode)) ∧
      (∀ a : Byte, a.toNat = (is.flatMap encode).length + 3 + (is'.flatMap encode).length →
        assemble (text is ++ ldi :: text is' ++ (name ++ [':']) :: text is'')
        = some ((is ++ .ldi (regOperand r) a :: is' ++ is'').flatMap encode)))
end

