-- ==== Sys2Proof/Laws/Decode.lean ====
section
/-! SUPPORT. The decoder's lookup, said once. -/

namespace Sys2Proof

/-- A decoded mnemonic is implemented, and its opcode is the byte decoded (R63). -/
theorem mnemonicOf_eq_some {c : Config} {ir : Byte} {m : Mnemonic} (h : c.mnemonicOf ir = some m) :
    c.implements m = true ∧ c.opc m = ir := by
  simpa using List.find?_some h

theorem Mnemonic.mem_all (m : Mnemonic) : m ∈ Mnemonic.all := by cases m <;> decide

/-- A byte that is no implemented opcode decodes to no mnemonic. -/
theorem mnemonicOf_eq_none {c : Config} {ir : Byte} :
    c.mnemonicOf ir = none ↔ ∀ m, c.implements m = true → c.opc m ≠ ir := by
  simp only [Config.mnemonicOf, List.find?_eq_none, Bool.and_eq_true, beq_iff_eq, not_and]
  exact ⟨fun h m hm => h m m.mem_all hm, fun h m _ hm => h m hm⟩

/-- Under an injective opcode map an implemented mnemonic is found by its opcode (R67). -/
theorem mnemonicOf_opc {c : Config} (inj : ∀ m m', c.opc m = c.opc m' → m = m') {m : Mnemonic}
    (hm : c.implements m = true) : c.mnemonicOf (c.opc m) = some m := by
  cases h : c.mnemonicOf (c.opc m) with
  | none => exact absurd rfl (mnemonicOf_eq_none.mp h m hm)
  | some m' => exact congrArg some (inj _ _ (mnemonicOf_eq_some h).2)

/-- The opcode map of this hardware is lawful (R62, R66, R67): thirteen distinct bytes, bits 7:6 the operand count. -/
theorem coreConfig_lawful : coreConfig.Lawful where
  injective := by intro m m'; cases m <;> cases m' <;> decide
  countBits := by intro m; cases m <;> decide

/-- Three bytes decode, or their first is no implemented opcode (R83): a fetch is never truncated. -/
theorem decodeWith_three {c : Config} {ir a b : Byte} {e : DecodeError} (h : decodeWith c [ir, a, b] = .error e) :
    c.mnemonicOf ir = none ∧ e = .unknownOpcode ir := by
  simp only [decodeWith] at h
  cases hm : c.mnemonicOf ir with
  | none => simpa [hm, eq_comm] using h
  | some m => cases hf : m.format <;> simp [hm, hf] at h

/-- The opcode byte and the operand bytes give the instruction back, whatever bytes stand after it. -/
theorem instr_operands (i : Instr) : ∃ a b, i = i.mnemonic.instr a b := by
  cases i with
  | ldi a b => exact ⟨a, b, rfl⟩
  | mul a b => exact ⟨a, b, rfl⟩
  | add a b => exact ⟨a, b, rfl⟩
  | cmp a b => exact ⟨a, b, rfl⟩
  | prn a => exact ⟨a, 0, rfl⟩
  | push a => exact ⟨a, 0, rfl⟩
  | pop a => exact ⟨a, 0, rfl⟩
  | call a => exact ⟨a, 0, rfl⟩
  | jmp a => exact ⟨a, 0, rfl⟩
  | jeq a => exact ⟨a, 0, rfl⟩
  | jne a => exact ⟨a, 0, rfl⟩
  | hlt => exact ⟨0, 0, rfl⟩
  | ret => exact ⟨0, 0, rfl⟩

end Sys2Proof
end

