-- ==== Sys2Proof/Laws/State.lean ====
section
/-! SUPPORT. One lemma per field per update of State, so that no proof unfolds a record update. -/

namespace Sys2Proof.Machine

section
variable (s : State)

@[simp] theorem State.mem_setReg (i : Fin 8) (v : Byte) : (s.setReg i v).mem = s.mem := rfl
@[simp] theorem State.pc_setReg (i : Fin 8) (v : Byte) : (s.setReg i v).pc = s.pc := rfl
@[simp] theorem State.fl_setReg (i : Fin 8) (v : Byte) : (s.setReg i v).fl = s.fl := rfl
@[simp] theorem State.rs_setReg (i : Fin 8) (v : Byte) : (s.setReg i v).rs = s.rs := rfl
@[simp] theorem State.badop_setReg (i : Fin 8) (v : Byte) : (s.setReg i v).badop = s.badop := rfl
@[simp] theorem State.cause_setReg (i : Fin 8) (v : Byte) : (s.setReg i v).cause = s.cause := rfl
@[simp] theorem State.info_setReg (i : Fin 8) (v : Byte) : (s.setReg i v).info = s.info := rfl
@[simp] theorem State.out_setReg (i : Fin 8) (v : Byte) : (s.setReg i v).out = s.out := rfl
@[simp] theorem State.memRead_setReg (i : Fin 8) (v : Byte) (c : Byte) : (s.setReg i v).memRead c = s.memRead c := rfl

@[simp] theorem State.mem_memWrite (a v : Byte) : (s.memWrite a v).mem = s.mem.write a v := rfl
@[simp] theorem State.pc_memWrite (a v : Byte) : (s.memWrite a v).pc = s.pc := rfl
@[simp] theorem State.fl_memWrite (a v : Byte) : (s.memWrite a v).fl = s.fl := rfl
@[simp] theorem State.rs_memWrite (a v : Byte) : (s.memWrite a v).rs = s.rs := rfl
@[simp] theorem State.badop_memWrite (a v : Byte) : (s.memWrite a v).badop = s.badop := rfl
@[simp] theorem State.cause_memWrite (a v : Byte) : (s.memWrite a v).cause = s.cause := rfl
@[simp] theorem State.info_memWrite (a v : Byte) : (s.memWrite a v).info = s.info := rfl
@[simp] theorem State.out_memWrite (a v : Byte) : (s.memWrite a v).out = s.out := rfl
@[simp] theorem State.reg_memWrite (a v : Byte) (j : Fin 8) : (s.memWrite a v).reg j = s.reg j := rfl
@[simp] theorem State.sp_memWrite (a v : Byte) : (s.memWrite a v).sp = s.sp := rfl

@[simp] theorem State.mem_setPc (v : Byte) : (s.setPc v).mem = s.mem := rfl
@[simp] theorem State.pc_setPc (v : Byte) : (s.setPc v).pc = v := rfl
@[simp] theorem State.fl_setPc (v : Byte) : (s.setPc v).fl = s.fl := rfl
@[simp] theorem State.rs_setPc (v : Byte) : (s.setPc v).rs = s.rs := rfl
@[simp] theorem State.badop_setPc (v : Byte) : (s.setPc v).badop = s.badop := rfl
@[simp] theorem State.cause_setPc (v : Byte) : (s.setPc v).cause = s.cause := rfl
@[simp] theorem State.info_setPc (v : Byte) : (s.setPc v).info = s.info := rfl
@[simp] theorem State.out_setPc (v : Byte) : (s.setPc v).out = s.out := rfl
@[simp] theorem State.reg_setPc (v : Byte) (j : Fin 8) : (s.setPc v).reg j = s.reg j := rfl
@[simp] theorem State.sp_setPc (v : Byte) : (s.setPc v).sp = s.sp := rfl
@[simp] theorem State.memRead_setPc (v : Byte) (c : Byte) : (s.setPc v).memRead c = s.memRead c := rfl

@[simp] theorem State.mem_advance (n : Byte) : (s.advance n).mem = s.mem := rfl
@[simp] theorem State.pc_advance (n : Byte) : (s.advance n).pc = s.pc + n := rfl
@[simp] theorem State.fl_advance (n : Byte) : (s.advance n).fl = s.fl := rfl
@[simp] theorem State.rs_advance (n : Byte) : (s.advance n).rs = s.rs := rfl
@[simp] theorem State.badop_advance (n : Byte) : (s.advance n).badop = s.badop := rfl
@[simp] theorem State.cause_advance (n : Byte) : (s.advance n).cause = s.cause := rfl
@[simp] theorem State.info_advance (n : Byte) : (s.advance n).info = s.info := rfl
@[simp] theorem State.out_advance (n : Byte) : (s.advance n).out = s.out := rfl
@[simp] theorem State.reg_advance (n : Byte) (j : Fin 8) : (s.advance n).reg j = s.reg j := rfl
@[simp] theorem State.sp_advance (n : Byte) : (s.advance n).sp = s.sp := rfl
@[simp] theorem State.memRead_advance (n : Byte) (c : Byte) : (s.advance n).memRead c = s.memRead c := rfl

@[simp] theorem State.mem_setFlags (v : Byte) : (s.setFlags v).mem = s.mem := rfl
@[simp] theorem State.pc_setFlags (v : Byte) : (s.setFlags v).pc = s.pc := rfl
@[simp] theorem State.fl_setFlags (v : Byte) : (s.setFlags v).fl = v := rfl
@[simp] theorem State.rs_setFlags (v : Byte) : (s.setFlags v).rs = s.rs := rfl
@[simp] theorem State.badop_setFlags (v : Byte) : (s.setFlags v).badop = s.badop := rfl
@[simp] theorem State.cause_setFlags (v : Byte) : (s.setFlags v).cause = s.cause := rfl
@[simp] theorem State.info_setFlags (v : Byte) : (s.setFlags v).info = s.info := rfl
@[simp] theorem State.out_setFlags (v : Byte) : (s.setFlags v).out = s.out := rfl
@[simp] theorem State.reg_setFlags (v : Byte) (j : Fin 8) : (s.setFlags v).reg j = s.reg j := rfl
@[simp] theorem State.sp_setFlags (v : Byte) : (s.setFlags v).sp = s.sp := rfl
@[simp] theorem State.memRead_setFlags (v : Byte) (c : Byte) : (s.setFlags v).memRead c = s.memRead c := rfl

@[simp] theorem State.mem_emit (v : Byte) : (s.emit v).mem = s.mem := rfl
@[simp] theorem State.pc_emit (v : Byte) : (s.emit v).pc = s.pc := rfl
@[simp] theorem State.fl_emit (v : Byte) : (s.emit v).fl = s.fl := rfl
@[simp] theorem State.rs_emit (v : Byte) : (s.emit v).rs = s.rs := rfl
@[simp] theorem State.badop_emit (v : Byte) : (s.emit v).badop = s.badop := rfl
@[simp] theorem State.cause_emit (v : Byte) : (s.emit v).cause = s.cause := rfl
@[simp] theorem State.info_emit (v : Byte) : (s.emit v).info = s.info := rfl
@[simp] theorem State.out_emit (v : Byte) : (s.emit v).out = s.out ++ [v] := rfl
@[simp] theorem State.reg_emit (v : Byte) (j : Fin 8) : (s.emit v).reg j = s.reg j := rfl
@[simp] theorem State.sp_emit (v : Byte) : (s.emit v).sp = s.sp := rfl
@[simp] theorem State.memRead_emit (v : Byte) (c : Byte) : (s.emit v).memRead c = s.memRead c := rfl

@[simp] theorem State.mem_decSp : s.decSp.mem = s.mem := rfl
@[simp] theorem State.pc_decSp : s.decSp.pc = s.pc := rfl
@[simp] theorem State.fl_decSp : s.decSp.fl = s.fl := rfl
@[simp] theorem State.rs_decSp : s.decSp.rs = s.rs := rfl
@[simp] theorem State.badop_decSp : s.decSp.badop = s.badop := rfl
@[simp] theorem State.cause_decSp : s.decSp.cause = s.cause := rfl
@[simp] theorem State.info_decSp : s.decSp.info = s.info := rfl
@[simp] theorem State.out_decSp : s.decSp.out = s.out := rfl
@[simp] theorem State.memRead_decSp (c : Byte) : s.decSp.memRead c = s.memRead c := rfl

@[simp] theorem State.mem_incSp : s.incSp.mem = s.mem := rfl
@[simp] theorem State.pc_incSp : s.incSp.pc = s.pc := rfl
@[simp] theorem State.fl_incSp : s.incSp.fl = s.fl := rfl
@[simp] theorem State.rs_incSp : s.incSp.rs = s.rs := rfl
@[simp] theorem State.badop_incSp : s.incSp.badop = s.badop := rfl
@[simp] theorem State.cause_incSp : s.incSp.cause = s.cause := rfl
@[simp] theorem State.info_incSp : s.incSp.info = s.info := rfl
@[simp] theorem State.out_incSp : s.incSp.out = s.out := rfl
@[simp] theorem State.memRead_incSp (c : Byte) : s.incSp.memRead c = s.memRead c := rfl

@[simp] theorem State.mem_raise (t : Trap) : (s.raise t).mem = s.mem := rfl
@[simp] theorem State.pc_raise (t : Trap) : (s.raise t).pc = s.pc := rfl
@[simp] theorem State.fl_raise (t : Trap) : (s.raise t).fl = s.fl := rfl
@[simp] theorem State.rs_raise (t : Trap) : (s.raise t).rs = .faulted := rfl
@[simp] theorem State.badop_raise (t : Trap) : (s.raise t).badop = s.badop := rfl
@[simp] theorem State.cause_raise (t : Trap) : (s.raise t).cause = t.cause := rfl
@[simp] theorem State.info_raise (t : Trap) : (s.raise t).info = t.info := rfl
@[simp] theorem State.out_raise (t : Trap) : (s.raise t).out = s.out := rfl
@[simp] theorem State.reg_raise (t : Trap) (j : Fin 8) : (s.raise t).reg j = s.reg j := rfl
@[simp] theorem State.sp_raise (t : Trap) : (s.raise t).sp = s.sp := rfl
@[simp] theorem State.memRead_raise (t : Trap) (c : Byte) : (s.raise t).memRead c = s.memRead c := rfl

@[simp] theorem State.mem_stopUnknownOpcode (b : Byte) : (s.stopUnknownOpcode b).mem = s.mem := rfl
@[simp] theorem State.pc_stopUnknownOpcode (b : Byte) : (s.stopUnknownOpcode b).pc = s.pc := rfl
@[simp] theorem State.fl_stopUnknownOpcode (b : Byte) : (s.stopUnknownOpcode b).fl = s.fl := rfl
@[simp] theorem State.rs_stopUnknownOpcode (b : Byte) : (s.stopUnknownOpcode b).rs = .stopped := rfl
@[simp] theorem State.badop_stopUnknownOpcode (b : Byte) : (s.stopUnknownOpcode b).badop = b := rfl
@[simp] theorem State.cause_stopUnknownOpcode (b : Byte) : (s.stopUnknownOpcode b).cause = s.cause := rfl
@[simp] theorem State.info_stopUnknownOpcode (b : Byte) : (s.stopUnknownOpcode b).info = s.info := rfl
@[simp] theorem State.out_stopUnknownOpcode (b : Byte) : (s.stopUnknownOpcode b).out = s.out := rfl
@[simp] theorem State.reg_stopUnknownOpcode (b : Byte) (j : Fin 8) : (s.stopUnknownOpcode b).reg j = s.reg j := rfl
@[simp] theorem State.sp_stopUnknownOpcode (b : Byte) : (s.stopUnknownOpcode b).sp = s.sp := rfl
@[simp] theorem State.memRead_stopUnknownOpcode (b : Byte) (c : Byte) : (s.stopUnknownOpcode b).memRead c = s.memRead c := rfl

@[simp] theorem State.mem_halt : s.halt.mem = s.mem := rfl
@[simp] theorem State.pc_halt : s.halt.pc = s.pc := rfl
@[simp] theorem State.fl_halt : s.halt.fl = s.fl := rfl
@[simp] theorem State.rs_halt : s.halt.rs = .halted := rfl
@[simp] theorem State.badop_halt : s.halt.badop = s.badop := rfl
@[simp] theorem State.cause_halt : s.halt.cause = s.cause := rfl
@[simp] theorem State.info_halt : s.halt.info = s.info := rfl
@[simp] theorem State.out_halt : s.halt.out = s.out := rfl
@[simp] theorem State.reg_halt (j : Fin 8) : s.halt.reg j = s.reg j := rfl
@[simp] theorem State.sp_halt : s.halt.sp = s.sp := rfl
@[simp] theorem State.memRead_halt (c : Byte) : s.halt.memRead c = s.memRead c := rfl

@[simp] theorem State.mem_started : s.started.mem = s.mem := rfl
@[simp] theorem State.pc_started : s.started.pc = s.pc := rfl
@[simp] theorem State.fl_started : s.started.fl = s.fl := rfl
@[simp] theorem State.rs_started : s.started.rs = .running := rfl
@[simp] theorem State.badop_started : s.started.badop = s.badop := rfl
@[simp] theorem State.cause_started : s.started.cause = s.cause := rfl
@[simp] theorem State.info_started : s.started.info = s.info := rfl
@[simp] theorem State.out_started : s.started.out = s.out := rfl
@[simp] theorem State.reg_started (j : Fin 8) : s.started.reg j = s.reg j := rfl
@[simp] theorem State.sp_started : s.started.sp = s.sp := rfl
@[simp] theorem State.memRead_started (c : Byte) : s.started.memRead c = s.memRead c := rfl

@[simp] theorem State.x_setPc (v : Byte) : (s.setPc v).x = s.x := rfl
@[simp] theorem State.x_raise (t : Trap) : (s.raise t).x = s.x := rfl
@[simp] theorem State.x_stopUnknownOpcode (b : Byte) : (s.stopUnknownOpcode b).x = s.x := rfl
@[simp] theorem State.x_halt : s.halt.x = s.x := rfl

/-- Reading a register after a write. -/
@[simp] theorem State.reg_setReg (i j : Fin 8) (v : Byte) : (s.setReg i v).reg j = if i = j then v else s.reg j := by
  simp [State.setReg, State.reg, Vector.getElem_set, Fin.ext_iff]

/-- The stack pointer is register 7. -/
theorem State.sp_eq_reg : s.sp = s.reg 7 := rfl

@[simp] theorem State.sp_setReg (i : Fin 8) (v : Byte) : (s.setReg i v).sp = if i = 7 then v else s.sp := by
  simp [State.sp_eq_reg]

@[simp] theorem State.reg_decSp (j : Fin 8) : s.decSp.reg j = if 7 = j then s.sp - 1 else s.reg j :=
  State.reg_setReg s 7 j _

@[simp] theorem State.reg_incSp (j : Fin 8) : s.incSp.reg j = if 7 = j then s.sp + 1 else s.reg j :=
  State.reg_setReg s 7 j _

@[simp] theorem State.sp_decSp : s.decSp.sp = s.sp - 1 := by simp [State.sp_eq_reg]

@[simp] theorem State.sp_incSp : s.incSp.sp = s.sp + 1 := by simp [State.sp_eq_reg]

end

/-- Two states with the same registers, read one by one, hold the same register file. -/
theorem State.x_ext {s t : State} (h : ∀ j : Fin 8, t.reg j = s.reg j) : t.x = s.x := by
  apply Vector.ext
  intro k hk
  exact h ⟨k, hk⟩

end Sys2Proof.Machine
end

