-- ==== Sys2Proof/Laws/Memory.lean ====
section
/-! SUPPORT. Memory: a read after a write, and the canonical form that every memory operation keeps. -/

namespace Sys2Proof.Machine

/-- A well-formed list from a higher bound is well-formed from a lower one. -/
theorem Memory.wfFrom_mono {m : Memory} {lo hi : Nat} (h : lo ≤ hi) (w : Memory.wfFrom hi m = true) :
    Memory.wfFrom lo m = true := by
  cases m with
  | nil => rfl
  | cons c rest =>
    simp only [Memory.wfFrom, Bool.and_eq_true, decide_eq_true_eq] at w ⊢
    exact ⟨⟨by omega, w.1.2⟩, w.2⟩

/-- Below the lower bound of a well-formed list nothing is listed. -/
theorem Memory.readAt_below {m : Memory} {lo a : Nat} (w : Memory.wfFrom lo m = true) (h : a < lo) :
    Memory.readAt a m = Memory.unlisted := by
  induction m generalizing lo with
  | nil => rfl
  | cons c rest ih =>
    simp only [Memory.wfFrom, Bool.and_eq_true, decide_eq_true_eq] at w
    rw [Memory.readAt, if_neg (by omega)]
    exact ih w.2 (by omega)

/-- A read after a write, by cell number. -/
theorem Memory.readAt_writeAt {m : Memory} {lo : Nat} (w : Memory.wfFrom lo m = true) (a b : Nat) (v : Byte) :
    Memory.readAt b (Memory.writeAt a v m) = if b = a then v else Memory.readAt b m := by
  induction m generalizing lo with
  | nil =>
    by_cases hv : v = Memory.unlisted
    · simp [Memory.writeAt, Memory.readAt, hv]
    · simp [Memory.writeAt, Memory.readAt, hv, eq_comm]
  | cons c rest ih =>
    obtain ⟨k, u⟩ := c
    simp only [Memory.wfFrom, Bool.and_eq_true, decide_eq_true_eq] at w
    have below := fun (x : Nat) (h : x < k + 1) => Memory.readAt_below w.2 h
    have tail := ih w.2
    simp only [Memory.writeAt]
    by_cases hb : b = a
    · subst hb
      rw [if_pos rfl] at tail ⊢
      split_ifs with h1 h2 h3 h4
      · simp [Memory.readAt, h2, below b (by omega), show k ≠ b by omega]
      · simp [Memory.readAt]
      · rw [h4, below b (by omega)]
      · simp [Memory.readAt]
      · simp [Memory.readAt, Ne.symm h3, tail]
    · rw [if_neg hb] at tail ⊢
      split_ifs with h1 h2 h3 h4
      · rfl
      · simp [Memory.readAt, Ne.symm hb]
      · simp [Memory.readAt, ← h3, Ne.symm hb]
      · simp [Memory.readAt, ← h3, Ne.symm hb]
      · simp [Memory.readAt, tail]

/-- Writing keeps the canonical form, by cell number. -/
theorem Memory.wfFrom_writeAt {m : Memory} {lo : Nat} (w : Memory.wfFrom lo m = true) {a : Nat} (hlo : lo ≤ a)
    (ha : a < Config.memSize) (v : Byte) : Memory.wfFrom lo (Memory.writeAt a v m) = true := by
  induction m generalizing lo with
  | nil =>
    by_cases hv : v = Memory.unlisted
    · simp [Memory.writeAt, hv, Memory.wfFrom]
    · simp [Memory.writeAt, hv, Memory.wfFrom, hlo, ha]
  | cons c rest ih =>
    obtain ⟨k, u⟩ := c
    have w0 := w
    simp only [Memory.wfFrom, Bool.and_eq_true, decide_eq_true_eq] at w
    simp only [Memory.writeAt]
    split_ifs with h1 h2 h3 h4
    · exact w0
    · simp only [Memory.wfFrom, Bool.and_eq_true, decide_eq_true_eq]
      exact ⟨⟨hlo, ha, h2⟩, ⟨by omega, w.1.2⟩, w.2⟩
    · exact Memory.wfFrom_mono (by omega) w.2
    · subst h3
      simp only [Memory.wfFrom, Bool.and_eq_true, decide_eq_true_eq]
      exact ⟨⟨hlo, ha, h4⟩, w.2⟩
    · simp only [Memory.wfFrom, Bool.and_eq_true, decide_eq_true_eq]
      exact ⟨w.1, ih w.2 (by omega)⟩

/-- A read after a write (20_memory.md R42): a write changes exactly one cell. -/
theorem Memory.read_write {m : Memory} (w : m.wf = true) (a b v : Byte) :
    (m.write a v).read b = if b = a then v else m.read b := by
  simp only [Memory.read, Memory.write, Memory.readAt_writeAt w, BitVec.toNat_inj]

/-- Writing keeps the canonical form. -/
theorem Memory.wf_write {m : Memory} (w : m.wf = true) (a v : Byte) : (m.write a v).wf = true :=
  Memory.wfFrom_writeAt w (Nat.zero_le _) a.isLt v

/-- A read after a write, on the state. -/
theorem State.memRead_memWrite {s : State} (w : s.mem.wf = true) (a b v : Byte) :
    (s.memWrite a v).memRead b = if b = a then v else s.memRead b := Memory.read_write w a b v

/-- Storing bytes keeps the canonical form. -/
theorem State.wf_storeBytes {s : State} (w : s.mem.wf = true) (a : Byte) (bytes : List Byte) :
    (State.storeBytes a bytes s).mem.wf = true := by
  induction bytes generalizing a s with
  | nil => exact w
  | cons v rest ih => exact ih (s := s.memWrite a v) (Memory.wf_write w a v) (a + 1)

/-- Memory after reset is in canonical form. -/
theorem State.wf_reset : State.reset.mem.wf = true := rfl

end Sys2Proof.Machine
end

