-- ==== Sys2Proof/Laws/Exec.lean ====
section
/-! SUPPORT. What the checks and each meaning can do, said once: the cases of every check, and for each instruction the
one next state its effect gives when the checks pass. -/

namespace Sys2Proof.Machine

section
variable {α : Type} (s : State)

@[simp] theorem State.checked_ok (v : α) (k : α → StepOutcome) : s.checked (.ok v) k = k v := rfl

@[simp] theorem State.checked_error (t : Trap) (k : α → StepOutcome) :
    s.checked (.error t) k = .next (s.raise t) := rfl

/-- The fetch range check (R81): go on at `PC <= 253`, else AddressFault. -/
@[simp] theorem State.checked_checkFetch (k : Unit → StepOutcome) :
    s.checked (checkFetch s) k = if s.pc.toNat ≤ 253 then k () else .next (s.raise ⟨.address, s.pc⟩) := by
  simp only [checkFetch, fetchCheck, coreConfig]
  split <;> rfl

/-- The register-index check (R85): go on with the register named, else RegisterIndexFault. -/
@[simp] theorem State.checked_checkReg (v : Byte) (k : Fin 8 → StepOutcome) :
    s.checked (checkReg v) k =
      if h : v.toNat < 8 then k ⟨v.toNat, h⟩ else .next (s.raise ⟨.regIndex, v⟩) := by
  simp only [checkReg, regIndex, coreConfig]
  split <;> rfl

/-- The advance range check of a 3-byte instruction (R87): go on at `PC <= 252`, else AddressFault. -/
@[simp] theorem State.checked_checkAdvance3 (k : Unit → StepOutcome) :
    s.checked (checkAdvance3 s) k =
      if s.pc.toNat + 3 ≤ 255 then k () else .next (s.raise ⟨.address, s.pc⟩) := by
  simp only [checkAdvance3, advanceCheck, coreConfig]
  split <;> rfl

end

@[simp] theorem toNat_regOperand (i : Fin 8) : (regOperand i).toNat = i.val := by
  simp only [regOperand, Byte.narrow, BitVec.toNat_ofNat]
  omega

/-- The operand byte of register `i` passes the check and names register `i`. -/
@[simp] theorem State.checked_regOperand (s : State) (i : Fin 8) (k : Fin 8 → StepOutcome) :
    s.checked (checkReg (regOperand i)) k = k i := by
  simp

/-- Every operand byte up to 7 is the operand byte of a register. -/
theorem eq_regOperand {v : Byte} (h : v.toNat < 8) : v = regOperand ⟨v.toNat, h⟩ := by
  apply BitVec.eq_of_toNat_eq
  simp

section
variable {s : State}

/-- LDI (R100), the checks passed. -/
theorem execLdi_next (h : s.pc.toNat ≤ 252) (i : Fin 8) (b : Byte) :
    execLdi (regOperand i) b s = .next ((s.setReg i b).advance 3) := by
  simp [execLdi, show s.pc.toNat ≤ 253 by omega, show s.pc.toNat + 3 ≤ 255 by omega]

/-- PRN (R101), the checks passed. -/
theorem execPrn_next (h : s.pc.toNat ≤ 253) (i : Fin 8) :
    execPrn (regOperand i) s = .next ((s.emit (s.reg i)).advance 2) := by
  simp [execPrn, h]

/-- HLT (R102), the check passed. -/
theorem execHlt_next (h : s.pc.toNat ≤ 253) : execHlt s = .next s.halt := by
  simp [execHlt, h]

/-- An ALU instruction (R114, R115, R116), the checks passed and the operation supported. -/
theorem aluStep_next {op : AluOp} {r : AluResult} (h : s.pc.toNat ≤ 252) (i j : Fin 8)
    (hr : alu op (s.reg i) (s.reg j) = .ok r) :
    aluStep op (regOperand i) (regOperand j) s = .next ((s.writeAlu i r).advance 3) := by
  simp [aluStep, show s.pc.toNat ≤ 253 by omega, show s.pc.toNat + 3 ≤ 255 by omega, hr]

/-- PUSH (R130), the checks passed. -/
theorem execPush_next (h : s.pc.toNat ≤ 253) (i : Fin 8) :
    execPush (regOperand i) s = .next ((s.decSp.memWrite s.decSp.sp (s.decSp.reg i)).advance 2) := by
  simp [execPush, h]

/-- POP (R131), the checks passed. -/
theorem execPop_next (h : s.pc.toNat ≤ 253) (i : Fin 8) :
    execPop (regOperand i) s = .next ((s.setReg i (s.memRead s.sp)).incSp.advance 2) := by
  simp [execPop, h]

/-- CALL (R140), the checks passed. -/
theorem execCall_next (h : s.pc.toNat ≤ 253) (i : Fin 8) :
    execCall (regOperand i) s =
      .next ((s.decSp.memWrite s.decSp.sp (s.pc + 2)).setPc (s.decSp.reg i)) := by
  simp [execCall, h]

/-- RET (R141), the check passed. -/
theorem execRet_next (h : s.pc.toNat ≤ 253) : execRet s = .next (s.setPc (s.memRead s.sp)).incSp := by
  simp [execRet, h]

/-- A jump (R142, R143, R144), the checks passed. -/
theorem jumpWhen_next (h : s.pc.toNat ≤ 253) (taken : Bool) (i : Fin 8) :
    jumpWhen taken (regOperand i) s = .next (if taken then s.setPc (s.reg i) else s.advance 2) := by
  simp [jumpWhen, h]

end

/-- What a fault raised from `s` records (R161): AddressFault with `PC` at 253 or above, or, once the fetch range check
has passed, RegisterIndexFault with one of the operand bytes `ops` that is above 7. -/
def RaisedFrom (ops : List Byte) (s t : State) : Prop :=
  ∃ tr : Trap, t = s.raise tr ∧
    (tr.cause = .address ∧ tr.info = s.pc ∧ 253 ≤ s.pc.toNat ∨
      tr.cause = .regIndex ∧ 7 < tr.info.toNat ∧ tr.info ∈ ops ∧ s.pc.toNat ≤ 253)

theorem raisedFrom_address {ops : List Byte} {s : State} (h : 253 ≤ s.pc.toNat) :
    RaisedFrom ops s (s.raise ⟨.address, s.pc⟩) :=
  ⟨_, rfl, .inl ⟨rfl, rfl, h⟩⟩

theorem raisedFrom_regIndex {ops : List Byte} {s : State} {v : Byte} (hv : ¬v.toNat < 8) (hops : v ∈ ops)
    (h : s.pc.toNat ≤ 253) : RaisedFrom ops s (s.raise ⟨.regIndex, v⟩) :=
  ⟨_, rfl, .inr ⟨rfl, Nat.lt_of_not_le fun hle => hv (Nat.lt_succ_of_le hle), hops, h⟩⟩

theorem RaisedFrom.mono {ops ops' : List Byte} {s t : State} (h : RaisedFrom ops s t) (sub : ∀ v ∈ ops, v ∈ ops') :
    RaisedFrom ops' s t := by
  obtain ⟨tr, rfl, h | ⟨h1, h2, h3, h4⟩⟩ := h
  · exact ⟨tr, rfl, .inl h⟩
  · exact ⟨tr, rfl, .inr ⟨h1, h2, sub _ h3, h4⟩⟩

/-- A check passes with a value, or the next state is `s` with the fault raised. -/
theorem State.checked_cases {α : Type} {s t : State} {check : Except Trap α} {k : α → StepOutcome}
    (h : s.checked check k = .next t) :
    (∃ v, check = .ok v ∧ k v = .next t) ∨ (∃ tr, check = .error tr ∧ t = s.raise tr) := by
  cases check with
  | ok v => exact .inl ⟨v, rfl, h⟩
  | error tr => exact .inr ⟨tr, rfl, by simpa using h.symm⟩

section
variable {s t : State} {a b : Byte}

/-- LDI answers its effect or a fault, nothing else. -/
theorem execLdi_cases (h : execLdi a b s = .next t) :
    RaisedFrom [a] s t ∨ ∃ i, a = regOperand i ∧ s.pc.toNat ≤ 252 ∧ t = (s.setReg i b).advance 3 := by
  simp only [execLdi, State.checked_checkFetch, State.checked_checkReg, State.checked_checkAdvance3] at h
  split_ifs at h with h1 h2 h3 <;> injection h with h <;> subst h
  · exact .inr ⟨_, eq_regOperand h2, by omega, rfl⟩
  · exact .inl (raisedFrom_address (by omega))
  · exact .inl (raisedFrom_regIndex h2 (by simp) h1)
  · exact .inl (raisedFrom_address (by omega))

/-- PRN answers its effect or a fault, nothing else. -/
theorem execPrn_cases (h : execPrn a s = .next t) :
    RaisedFrom [a] s t ∨ ∃ i, a = regOperand i ∧ s.pc.toNat ≤ 253 ∧ t = (s.emit (s.reg i)).advance 2 := by
  simp only [execPrn, State.checked_checkFetch, State.checked_checkReg] at h
  split_ifs at h with h1 h2 <;> injection h with h <;> subst h
  · exact .inr ⟨_, eq_regOperand h2, h1, rfl⟩
  · exact .inl (raisedFrom_regIndex h2 (by simp) h1)
  · exact .inl (raisedFrom_address (by omega))

/-- HLT answers its effect or a fault, nothing else. -/
theorem execHlt_cases (h : execHlt s = .next t) : RaisedFrom [] s t ∨ s.pc.toNat ≤ 253 ∧ t = s.halt := by
  simp only [execHlt, State.checked_checkFetch] at h
  split_ifs at h with h1 <;> injection h with h <;> subst h
  · exact .inr ⟨h1, rfl⟩
  · exact .inl (raisedFrom_address (by omega))

/-- A supported ALU instruction answers its effect or a fault, nothing else. -/
theorem aluStep_cases {op : AluOp} (supported : ∀ ir, op ≠ .other ir) (h : aluStep op a b s = .next t) :
    RaisedFrom [a, b] s t ∨ ∃ i j r, a = regOperand i ∧ b = regOperand j ∧ s.pc.toNat ≤ 252 ∧
      alu op (s.reg i) (s.reg j) = .ok r ∧ t = (s.writeAlu i r).advance 3 := by
  simp only [aluStep, State.checked_checkFetch, State.checked_checkReg, State.checked_checkAdvance3] at h
  split_ifs at h with h1 h2 h3 h4
  · obtain ⟨r, hr, hk⟩ | ⟨tr, htr, -⟩ := State.checked_cases h
    · injection hk with hk
      exact .inr ⟨_, _, r, eq_regOperand h2, eq_regOperand h3, by omega, hr, hk.symm⟩
    · cases op with
      | other ir => exact absurd rfl (supported ir)
      | _ => simp [alu] at htr
  all_goals injection h with h; subst h
  · exact .inl (raisedFrom_address (by omega))
  · exact .inl (raisedFrom_regIndex h3 (by simp) h1)
  · exact .inl (raisedFrom_regIndex h2 (by simp) h1)
  · exact .inl (raisedFrom_address (by omega))

/-- PUSH answers its effect or a fault, nothing else. -/
theorem execPush_cases (h : execPush a s = .next t) :
    RaisedFrom [a] s t ∨ ∃ i, a = regOperand i ∧ s.pc.toNat ≤ 253 ∧
      t = (s.decSp.memWrite s.decSp.sp (s.decSp.reg i)).advance 2 := by
  simp only [execPush, State.checked_checkFetch, State.checked_checkReg] at h
  split_ifs at h with h1 h2 <;> injection h with h <;> subst h
  · exact .inr ⟨_, eq_regOperand h2, h1, rfl⟩
  · exact .inl (raisedFrom_regIndex h2 (by simp) h1)
  · exact .inl (raisedFrom_address (by omega))

/-- POP answers its effect or a fault, nothing else. -/
theorem execPop_cases (h : execPop a s = .next t) :
    RaisedFrom [a] s t ∨ ∃ i, a = regOperand i ∧ s.pc.toNat ≤ 253 ∧
      t = (s.setReg i (s.memRead s.sp)).incSp.advance 2 := by
  simp only [execPop, State.checked_checkFetch, State.checked_checkReg] at h
  split_ifs at h with h1 h2 <;> injection h with h <;> subst h
  · exact .inr ⟨_, eq_regOperand h2, h1, rfl⟩
  · exact .inl (raisedFrom_regIndex h2 (by simp) h1)
  · exact .inl (raisedFrom_address (by omega))

/-- CALL answers its effect or a fault, nothing else. -/
theorem execCall_cases (h : execCall a s = .next t) :
    RaisedFrom [a] s t ∨ ∃ i, a = regOperand i ∧ s.pc.toNat ≤ 253 ∧
      t = (s.decSp.memWrite s.decSp.sp (s.pc + 2)).setPc (s.decSp.reg i) := by
  simp only [execCall, State.checked_checkFetch, State.checked_checkReg] at h
  split_ifs at h with h1 h2 <;> injection h with h <;> subst h
  · exact .inr ⟨_, eq_regOperand h2, h1, rfl⟩
  · exact .inl (raisedFrom_regIndex h2 (by simp) h1)
  · exact .inl (raisedFrom_address (by omega))

/-- RET answers its effect or a fault, nothing else. -/
theorem execRet_cases (h : execRet s = .next t) :
    RaisedFrom [] s t ∨ s.pc.toNat ≤ 253 ∧ t = (s.setPc (s.memRead s.sp)).incSp := by
  simp only [execRet, State.checked_checkFetch] at h
  split_ifs at h with h1 <;> injection h with h <;> subst h
  · exact .inr ⟨h1, rfl⟩
  · exact .inl (raisedFrom_address (by omega))

/-- A jump answers its effect or a fault, nothing else. -/
theorem jumpWhen_cases {taken : Bool} (h : jumpWhen taken a s = .next t) :
    RaisedFrom [a] s t ∨ ∃ i, a = regOperand i ∧ s.pc.toNat ≤ 253 ∧
      t = if taken then s.setPc (s.reg i) else s.advance 2 := by
  simp only [jumpWhen, State.checked_checkFetch, State.checked_checkReg] at h
  split_ifs at h with h1 h2 h3 <;> injection h with h <;> subst h
  · exact .inr ⟨_, eq_regOperand h2, h1, by simp [h3]⟩
  · exact .inr ⟨_, eq_regOperand h2, h1, by simp [h3]⟩
  · exact .inl (raisedFrom_regIndex h2 (by simp) h1)
  · exact .inl (raisedFrom_address (by omega))

end

/-- The effect of each instruction as a relation: the register its operand names, and the state after. -/
def Effect (i : Instr) (s t : State) : Prop :=
  match i with
  | .ldi a b => ∃ r, a = regOperand r ∧ s.pc.toNat ≤ 252 ∧ t = (s.setReg r b).advance 3
  | .prn a => ∃ r, a = regOperand r ∧ t = (s.emit (s.reg r)).advance 2
  | .hlt => t = s.halt
  | .mul a b => ∃ r q, a = regOperand r ∧ b = regOperand q ∧ s.pc.toNat ≤ 252 ∧
      t = (s.setReg r (Byte.narrow ((s.reg r).toNat * (s.reg q).toNat))).advance 3
  | .add a b => ∃ r q, a = regOperand r ∧ b = regOperand q ∧ s.pc.toNat ≤ 252 ∧
      t = (s.setReg r (Byte.narrow ((s.reg r).toNat + (s.reg q).toNat))).advance 3
  | .push a => ∃ r, a = regOperand r ∧ t = (s.decSp.memWrite s.decSp.sp (s.decSp.reg r)).advance 2
  | .pop a => ∃ r, a = regOperand r ∧ t = (s.setReg r (s.memRead s.sp)).incSp.advance 2
  | .call a => ∃ r, a = regOperand r ∧ t = (s.decSp.memWrite s.decSp.sp (s.pc + 2)).setPc (s.decSp.reg r)
  | .ret => t = (s.setPc (s.memRead s.sp)).incSp
  | .cmp a b => ∃ r q, a = regOperand r ∧ b = regOperand q ∧ s.pc.toNat ≤ 252 ∧
      t = (s.setFlags (compareFlags (s.reg r) (s.reg q))).advance 3
  | .jmp a => ∃ r, a = regOperand r ∧ t = s.setPc (s.reg r)
  | .jeq a => ∃ r, a = regOperand r ∧ t = if s.flagE then s.setPc (s.reg r) else s.advance 2
  | .jne a => ∃ r, a = regOperand r ∧ t = if s.flagE then s.advance 2 else s.setPc (s.reg r)

/-- An instruction answers a fault that its rule lists, or its effect, nothing else. -/
theorem exec_cases {i : Instr} {s t : State} (h : exec i s = .next t) :
    RaisedFrom i.operands s t ∨ s.pc.toNat ≤ 253 ∧ Effect i s t := by
  cases i with
  | ldi a b =>
    obtain h | ⟨r, ha, hp, ht⟩ := execLdi_cases h
    · exact .inl (h.mono (by simp [Instr.operands]))
    · exact .inr ⟨by omega, r, ha, hp, ht⟩
  | prn a => exact (execPrn_cases h).imp id fun ⟨r, ha, hp, ht⟩ => ⟨hp, r, ha, ht⟩
  | hlt => exact execHlt_cases h
  | mul a b =>
    refine (aluStep_cases (fun _ => by simp) h).imp id ?_
    rintro ⟨r, q, res, ha, hb, hp, hr, ht⟩
    cases hr
    exact ⟨by omega, r, q, ha, hb, hp, ht⟩
  | add a b =>
    refine (aluStep_cases (fun _ => by simp) h).imp id ?_
    rintro ⟨r, q, res, ha, hb, hp, hr, ht⟩
    cases hr
    exact ⟨by omega, r, q, ha, hb, hp, ht⟩
  | cmp a b =>
    refine (aluStep_cases (fun _ => by simp) h).imp id ?_
    rintro ⟨r, q, res, ha, hb, hp, hr, ht⟩
    cases hr
    exact ⟨by omega, r, q, ha, hb, hp, ht⟩
  | push a => exact (execPush_cases h).imp id fun ⟨r, ha, hp, ht⟩ => ⟨hp, r, ha, ht⟩
  | pop a => exact (execPop_cases h).imp id fun ⟨r, ha, hp, ht⟩ => ⟨hp, r, ha, ht⟩
  | call a => exact (execCall_cases h).imp id fun ⟨r, ha, hp, ht⟩ => ⟨hp, r, ha, ht⟩
  | ret => exact execRet_cases h
  | jmp a => exact (jumpWhen_cases h).imp id fun ⟨r, ha, hp, ht⟩ => ⟨hp, r, ha, by simpa using ht⟩
  | jeq a => exact (jumpWhen_cases h).imp id fun ⟨r, ha, hp, ht⟩ => ⟨hp, r, ha, ht⟩
  | jne a =>
    refine (jumpWhen_cases h).imp id fun ⟨r, ha, hp, ht⟩ => ⟨hp, r, ha, ?_⟩
    cases he : s.flagE <;> simpa [he] using ht

end Sys2Proof.Machine
end

