-- ==== Sys2Proof/Laws/PerInstr.lean ====
section
/-! SUPPORT. Facts about every instruction as syntax, one lemma per constructor. -/

namespace Sys2Proof.Laws

/-- The encoded length is the operand count plus one, and bits 7:6 of the opcode byte are the operand count
(spec 30_encoding.md R60, R62). -/
def EncodingShape.Statement (i : Instr) : Prop :=
  ∃ opcode operands, encode i = opcode :: operands ∧ operands.length = i.mnemonic.format.operandCount ∧
    opcode.toNat / 64 = operands.length

theorem EncodingShape.ldi (a b : Byte) : EncodingShape.Statement (.ldi a b) :=
  ⟨_, _, rfl, rfl, (by decide : (opcodeMap .ldi).toNat / 64 = 2)⟩

theorem EncodingShape.prn (a : Byte) : EncodingShape.Statement (.prn a) :=
  ⟨_, _, rfl, rfl, (by decide : (opcodeMap .prn).toNat / 64 = 1)⟩

theorem EncodingShape.hlt : EncodingShape.Statement .hlt :=
  ⟨_, _, rfl, rfl, (by decide : (opcodeMap .hlt).toNat / 64 = 0)⟩

theorem EncodingShape.mul (a b : Byte) : EncodingShape.Statement (.mul a b) :=
  ⟨_, _, rfl, rfl, (by decide : (opcodeMap .mul).toNat / 64 = 2)⟩

theorem EncodingShape.add (a b : Byte) : EncodingShape.Statement (.add a b) :=
  ⟨_, _, rfl, rfl, (by decide : (opcodeMap .add).toNat / 64 = 2)⟩

theorem EncodingShape.push (a : Byte) : EncodingShape.Statement (.push a) :=
  ⟨_, _, rfl, rfl, (by decide : (opcodeMap .push).toNat / 64 = 1)⟩

theorem EncodingShape.pop (a : Byte) : EncodingShape.Statement (.pop a) :=
  ⟨_, _, rfl, rfl, (by decide : (opcodeMap .pop).toNat / 64 = 1)⟩

theorem EncodingShape.call (a : Byte) : EncodingShape.Statement (.call a) :=
  ⟨_, _, rfl, rfl, (by decide : (opcodeMap .call).toNat / 64 = 1)⟩

theorem EncodingShape.ret : EncodingShape.Statement .ret :=
  ⟨_, _, rfl, rfl, (by decide : (opcodeMap .ret).toNat / 64 = 0)⟩

theorem EncodingShape.cmp (a b : Byte) : EncodingShape.Statement (.cmp a b) :=
  ⟨_, _, rfl, rfl, (by decide : (opcodeMap .cmp).toNat / 64 = 2)⟩

theorem EncodingShape.jmp (a : Byte) : EncodingShape.Statement (.jmp a) :=
  ⟨_, _, rfl, rfl, (by decide : (opcodeMap .jmp).toNat / 64 = 1)⟩

theorem EncodingShape.jeq (a : Byte) : EncodingShape.Statement (.jeq a) :=
  ⟨_, _, rfl, rfl, (by decide : (opcodeMap .jeq).toNat / 64 = 1)⟩

theorem EncodingShape.jne (a : Byte) : EncodingShape.Statement (.jne a) :=
  ⟨_, _, rfl, rfl, (by decide : (opcodeMap .jne).toNat / 64 = 1)⟩

end Sys2Proof.Laws
end

