-- ==== Sys2Proof/Laws/Step.lean ====
section
/-! SUPPORT. What a step can do, said once. -/

namespace Sys2Proof.Machine

/-- The step of a running core. -/
theorem step_running {s : State} (h : s.rs = .running) : step s = cycle s := by
  simp [step, h]

/-- A core that is not running stays as it is (R23, R168). -/
theorem step_not_running {s : State} (h : s.rs ≠ .running) : step s = .next s := by
  unfold step stay
  cases hr : s.rs <;> simp_all

/-- The cases of a running core's step: the fetch fault (R81), the unknown-opcode stop (R83), or the meaning of the
decoded instruction (R86). -/
theorem cycle_cases (s : State) :
    (253 < s.pc.toNat ∧ cycle s = .next (s.raise ⟨.address, s.pc⟩)) ∨
    (s.pc.toNat ≤ 253 ∧ (∃ e, decode s.fetched = .error e) ∧ cycle s = .next (s.stopUnknownOpcode (s.memRead s.pc))) ∨
    (s.pc.toNat ≤ 253 ∧ ∃ i rest, decode s.fetched = .ok (i, rest) ∧ cycle s = exec i s) := by
  by_cases h : s.pc.toNat ≤ 253
  · right
    cases hd : decode s.fetched with
    | error e => exact .inl ⟨h, ⟨e, rfl⟩, by simp [cycle, h, hd]⟩
    | ok r => exact .inr ⟨h, r.1, r.2, rfl, by simp [cycle, h, hd]⟩
  · exact .inl ⟨by omega, by simp [cycle, h]⟩

/-- What a step does to any state: nothing when the core is not running, else the fetch fault, the unknown-opcode stop, or
what the meaning of the decoded instruction answers. -/
theorem step_cases {s t : State} (h : step s = .next t) :
    (s.rs ≠ .running ∧ t = s) ∨
    (s.rs = .running ∧ 253 < s.pc.toNat ∧ t = s.raise ⟨.address, s.pc⟩) ∨
    (s.rs = .running ∧ s.pc.toNat ≤ 253 ∧ coreConfig.mnemonicOf (s.memRead s.pc) = none ∧
      t = s.stopUnknownOpcode (s.memRead s.pc)) ∨
    (s.rs = .running ∧ s.pc.toNat ≤ 253 ∧ ∃ i rest, decode s.fetched = .ok (i, rest) ∧ exec i s = .next t) := by
  by_cases hr : s.rs = .running
  · rw [step_running hr] at h
    right
    obtain ⟨h1, h2⟩ | ⟨h1, ⟨e, he⟩, h2⟩ | ⟨h1, i, rest, hd, h2⟩ := cycle_cases s <;> rw [h2] at h
    · exact .inl ⟨hr, h1, by injection h with h; exact h.symm⟩
    · exact .inr (.inl ⟨hr, h1, (decodeWith_three he).1, by injection h with h; exact h.symm⟩)
    · exact .inr (.inr ⟨hr, h1, i, rest, hd, h⟩)
  · rw [step_not_running hr] at h
    exact .inl ⟨hr, by injection h with h; exact h.symm⟩

/-- The operand bytes of a fetched instruction are the bytes after the opcode, and its opcode is the first byte. -/
theorem fetched_operands {s : State} {i : Instr} {rest : List Byte} (h : decode s.fetched = .ok (i, rest)) :
    coreConfig.mnemonicOf (s.memRead s.pc) = some i.mnemonic ∧
      ∀ v ∈ i.operands, v = s.memRead (s.pc + 1) ∨ v = s.memRead (s.pc + 2) := by
  simp only [decode, decodeWith, State.fetched] at h
  cases hm : coreConfig.mnemonicOf (s.memRead s.pc) with
  | none => simp [hm] at h
  | some m =>
    cases m <;> simp [hm, Mnemonic.format, Mnemonic.instr] at h <;> obtain ⟨rfl, -⟩ := h <;>
      simp [Instr.mnemonic, Instr.operands]

end Sys2Proof.Machine
end

