-- ==== Sys2Proof/Laws/Run.lean ====
section
/-! SUPPORT. Runs of the machine, and the host's transactions, one lemma per fact. -/

namespace Sys2Proof.Machine

/-- A run of no steps. -/
@[simp] theorem run_zero (s : State) : Sys2Proof.core.run 0 s = .next s := rfl

/-- On any machine, a run whose first step answers `t` goes on from `t`. -/
theorem run_succ_of_core (M : Host.Core) {s t : M.State} (h : M.step s = .next t) (k : Nat) :
    M.run (k + 1) s = M.run k t := by
  simp only [Host.Core.run, h]

/-- A run whose first step answers `t` goes on from `t`. -/
theorem run_succ {s t : State} (h : step s = .next t) (k : Nat) :
    Sys2Proof.core.run (k + 1) s = Sys2Proof.core.run k t :=
  run_succ_of_core Sys2Proof.core h k

/-- RESET (R190). -/
@[simp] theorem State.transact_reset (s : State) : s.transact .reset = State.reset := rfl

/-- LOAD while IDLE (R193). -/
theorem State.transact_load {s : State} (h : s.rs = .idle) (a v : Byte) :
    s.transact (.load a v) = s.memWrite a v := if_pos h

/-- START while IDLE (R194). -/
theorem State.transact_start {s : State} (h : s.rs = .idle) : s.transact .start = s.started := if_pos h

/-- LOAD and START in any other run status are ignored (R192). -/
theorem State.transact_ignored {s : State} (h : s.rs ≠ .idle) (a v : Byte) :
    s.transact (.load a v) = s ∧ s.transact .start = s := ⟨if_neg h, if_neg h⟩

end Sys2Proof.Machine
end

