-- ==== Sys2Proof/Tests/Slice0.lean ====
section
/-! SUPPORT. Tests: words written out from the spec's encodings, ill-formed terms, single steps from the vectors of spec
95_test_vectors.md, the spec's own assembly listing, and for every statement that has hypotheses a state that meets
them. -/

open Sys2Proof Sys2Proof.Machine Sys2Proof.Statements

namespace Sys2Proof.Tests

/-- The base state of 95_test_vectors.md section 3 with the given bytes at `pc` upward. -/
def base (pc : Byte) (bytes : List Byte) : State :=
  (State.storeBytes pc bytes (State.reset.setPc pc)).started

/-- The base state with one register set. -/
def base1 (pc : Byte) (bytes : List Byte) (i : Fin 8) (v : Byte) : State := (base pc bytes).setReg i v

/-- One step. -/
def one (s : State) : State :=
  match step s with
  | .next t => t
  | .fault _ => State.reset
  | .refused _ => State.reset

/-! Decoding: one word for every constructor, its bits as 30_encoding.md R66 and R61 write them. -/

theorem test_decode_ldi : decode [0b10000010, 0b00000111, 0b11111111] = .ok (.ldi 7 255, []) := by decide
theorem test_decode_prn : decode [0b01000111, 0b00000010] = .ok (.prn 2, []) := by decide
theorem test_decode_hlt : decode [0b00000001] = .ok (.hlt, []) := by decide
theorem test_decode_mul : decode [0b10100010, 0b00000101, 0b00000110] = .ok (.mul 5 6, []) := by decide
theorem test_decode_add : decode [0b10100000, 0b00000010, 0b00000011] = .ok (.add 2 3, []) := by decide
theorem test_decode_push : decode [0b01000101, 0b00000111] = .ok (.push 7, []) := by decide
theorem test_decode_pop : decode [0b01000110, 0b00000001] = .ok (.pop 1, []) := by decide
theorem test_decode_call : decode [0b01010000, 0b00000001] = .ok (.call 1, []) := by decide
theorem test_decode_ret : decode [0b00010001] = .ok (.ret, []) := by decide
theorem test_decode_cmp : decode [0b10100111, 0b00000011, 0b00000100] = .ok (.cmp 3 4, []) := by decide
theorem test_decode_jmp : decode [0b01010100, 0b00000100] = .ok (.jmp 4, []) := by decide
theorem test_decode_jeq : decode [0b01010101, 0b00000100] = .ok (.jeq 4, []) := by decide
theorem test_decode_jne : decode [0b01010110, 0b00000100] = .ok (.jne 4, []) := by decide
theorem test_decode_unknown : decode [0b11111111, 0, 0] = .error (.unknownOpcode 0xFF) := by decide
theorem test_decode_truncated : decode [0x82, 0x00] = .error (.truncated .ldi) := by decide
theorem test_table_word : decodeTableWord 8 0xA7 = some (.cmp 0 0) ∧ decodeTableWord 24 0x0807A0 = some (.add 7 8) := by
  decide
theorem test_withFetchWord : step (State.reset.withFetchWord 24 0x080082) =
    .next (((State.reset.withFetchWord 24 0x080082).setReg 0 8).advance 3) := rfl

/-! Well-formedness: an ill-formed term for each check (R65, R84). -/

theorem test_illformed_ldi : (Instr.ldi 8 0).wellFormed = false ∧ (Instr.ldi 7 255).wellFormed = true := by decide
theorem test_illformed_prn : (Instr.prn 8).wellFormed = false := by decide
theorem test_illformed_mul : (Instr.mul 8 0).wellFormed = false ∧ (Instr.mul 0 8).wellFormed = false := by decide
theorem test_illformed_add : (Instr.add 8 0).wellFormed = false ∧ (Instr.add 0 8).wellFormed = false := by decide
theorem test_illformed_cmp : (Instr.cmp 8 0).wellFormed = false ∧ (Instr.cmp 0 8).wellFormed = false := by decide
theorem test_illformed_push : (Instr.push 255).wellFormed = false := by decide
theorem test_illformed_pop : (Instr.pop 8).wellFormed = false := by decide
theorem test_illformed_call : (Instr.call 8).wellFormed = false := by decide
theorem test_illformed_jmp : (Instr.jmp 8).wellFormed = false := by decide
theorem test_illformed_jeq : (Instr.jeq 8).wellFormed = false := by decide
theorem test_illformed_jne : (Instr.jne 128).wellFormed = false := by decide

/-! Single steps, the expected values from 95_test_vectors.md (the vector's id in each comment). -/

/-- V3: LDI R7, 0x80. -/
theorem test_ldi_sp : (one (base 0 [0x82, 0x07, 0x80])).sp = 0x80 := by decide
/-- V77: LDI at 253 faults and writes nothing. -/
theorem test_ldi_at_253 : step (base1 0xFD [0x82, 0x00, 0x07] 0 0xFD) =
    addressFault (base1 0xFD [0x82, 0x00, 0x07] 0 0xFD) := rfl
/-- V5: PRN of 200. -/
theorem test_prn : (one (base1 0x10 [0x47, 0x02] 2 0xC8)).out = [0xC8] := by decide
/-- V8: HLT ignores the bytes after it. -/
theorem test_hlt : (one (base 0 [0x01, 0x09, 0x09])).rs = .halted ∧ (one (base 0 [0x01, 0x09, 0x09])).pc = 0 := by
  decide
/-- V20: MUL squares: 20 * 20 mod 256 = 144. -/
theorem test_mul_square : (one (base1 0 [0xA2, 0x02, 0x02] 2 0x14)).reg 2 = 0x90 := by decide
/-- V18: 255 * 255 mod 256 = 1. -/
theorem test_mul_wraps : (one ((base1 0 [0xA2, 0x00, 0x01] 0 0xFF).setReg 1 0xFF)).reg 0 = 1 := by decide
/-- V12: 200 + 100 mod 256 = 44. -/
theorem test_add_wraps : (one ((base1 0 [0xA0, 0x02, 0x03] 2 0xC8).setReg 3 0x64)).reg 2 = 0x2C := by decide
/-- V14: ADD leaves FL alone. -/
theorem test_add_flags : (one ((base1 0 [0xA0, 0x00, 0x01] 0 1).setFlags 4)).fl = 4 := by decide
/-- V26: CMP is unsigned. -/
theorem test_cmp_unsigned : (one ((base1 0 [0xA7, 0x00, 0x01] 0 0x80).setReg 1 0x7F)).fl = 2 := by decide
/-- V28: CMP overwrites the whole of FL. -/
theorem test_cmp_overwrites : (one ((base 0 [0xA7, 0x00, 0x01]).setFlags 4)).fl = 1 := by decide
/-- V32: PUSH at SP = 0 wraps to 255. -/
theorem test_push_wraps : (one ((base1 0x10 [0x45, 0x00] 0 0x5A).setReg 7 0)).memRead 0xFF = 0x5A := by decide
/-- V34: PUSH R7 stores the decremented SP. -/
theorem test_push_sp : (one (base 0 [0x45, 0x07])).memRead 0xF3 = 0xF3 := by decide
/-- V33: POP at SP = 255 wraps to 0. -/
theorem test_pop_wraps : (one (((base 0x10 [0x46, 0x01]).setReg 7 0xFF).memWrite 0xFF 0x77)).sp = 0 := by decide
/-- V35: POP R7 increments the loaded byte. -/
theorem test_pop_sp : (one (((base 0 [0x46, 0x07]).setReg 7 0xF3).memWrite 0xF3 0x10)).sp = 0x11 := by decide
/-- V40: CALL from 6 pushes 8. -/
theorem test_call : (one (base1 6 [0x50, 0x01] 1 0x0B)).memRead 0xF3 = 8 := by decide
/-- V44: CALL R7 goes to the decremented SP. -/
theorem test_call_sp : (one (base 0x20 [0x50, 0x07])).pc = 0xF3 := by decide
/-- V43: RET at SP = 255. -/
theorem test_ret_wraps : (one (((base 0x30 [0x11]).setReg 7 0xFF).memWrite 0xFF 0x42)).sp = 0 ∧
    (one (((base 0x30 [0x11]).setReg 7 0xFF).memWrite 0xFF 0x42)).pc = 0x42 := by decide
/-- V53: JMP R7. -/
theorem test_jmp : (one (base 0 [0x54, 0x07])).pc = 0xF4 := by decide
/-- V61: JEQ not taken with FL = Less. -/
theorem test_jeq_not_taken : (one ((base1 0x18 [0x55, 0x04] 4 0x0F).setFlags 4)).pc = 0x1A := by decide
/-- V68: JEQ not taken still checks its operand. -/
theorem test_jeq_checks : step (base 0x18 [0x55, 0x08]) = indexFault 8 (base 0x18 [0x55, 0x08]) := rfl
/-- V66: JNE before any CMP is taken. -/
theorem test_jne_taken : (one (base1 0x18 [0x56, 0x04] 4 0x0F)).pc = 0x0F := by decide
/-- V63: JNE not taken with FL = Equal. -/
theorem test_jne_not_taken : (one ((base1 0x18 [0x56, 0x04] 4 0x0F).setFlags 1)).pc = 0x1A := by decide
/-- V70: the source's unknown opcode. -/
theorem test_unknown : step (base 0 [0xFF]) = .next { base 0 [0xFF] with badop := 0xFF, rs := .stopped } := rfl
/-- V76: the fetch fault wins over the unknown opcode. -/
theorem test_fetch_first : step (base 0xFE [0xFF]) = addressFault (base 0xFE [0xFF]) := rfl
/-- V78: the register index wins over the advance. -/
theorem test_index_first : step (base 0xFD [0x82, 0x09, 0x07]) = indexFault 9 (base 0xFD [0x82, 0x09, 0x07]) := rfl
/-- V64: JEQ under JCOND_WIRED = false. -/
theorem test_unwired : decodeWith { coreConfig with jcondWired := false } [0x55, 0x04, 0x00] =
    .error (.unknownOpcode 0x55) := by decide

/-- The listing of 95_test_vectors.md P2 assembles to its image, its branch target written as a label. -/
theorem test_assemble_p2 :
    assemble ["LDI R0, 0x05".toList, "LDI R1, double ; the subroutine".toList, "CALL R1".toList, "PRN R0".toList,
      "HLT".toList, "double: ADD R0, R0".toList, "RET".toList] =
    some [0x82, 0x00, 0x05, 0x82, 0x01, 0x0B, 0x50, 0x01, 0x47, 0x00, 0x01, 0xA0, 0x00, 0x00, 0x11] := by decide
/-- A register index above 7 has no spelling, and an immediate is at most 255 (R72). -/
theorem test_assemble_refuses : assemble ["PRN R8".toList] = none ∧ assemble ["LDI R0, 256".toList] = none := by decide

/-! Witnesses: for every statement with hypotheses, values that meet them, one for each clause. -/

theorem witness_DecodeOfEncodeForEveryLawfulMap :
    coreConfig.Lawful ∧ coreConfig.implements (Instr.ldi 255 255).mnemonic = true := ⟨coreConfig_lawful, rfl⟩

theorem witness_DecodedBytesAreAnEncoding :
    decodeWith coreConfig [0x45, 0xFF, 0x09] = .ok (.push 0xFF, [0x09]) := by decide

theorem witness_BytesAfterAShortInstructionDoNotMatter :
    (decode [0x11, 0xFF, 0xFF] = .ok (.ret, [0xFF, 0xFF]) ∧ Instr.ret.mnemonic.format = .op0) ∧
    (decode [0x47, 0x08, 0xFF] = .ok (.prn 8, [0xFF]) ∧ (Instr.prn 8).mnemonic.format = .op1) := by decide

theorem witness_CanonicalMemoryIsItsReads :
    Memory.wf [(0, 1), (255, 7)] = true ∧ ∀ a : Byte, Memory.read [(0, 1), (255, 7)] a = Memory.read [(0, 1), (255, 7)] a :=
  ⟨by decide, fun _ => rfl⟩

theorem witness_StepRunsTheDecodedInstruction : RunsAt (base 0xFD [0x45, 0x00, 0x82]) (.push 0) :=
  ⟨⟨rfl, by decide⟩, [0x82], by decide⟩

theorem witness_PlacedWordRunsNext : State.reset.mem.wf = true ∧ decodeTableWord 24 0x010082 = some (.ldi 0 1) := by
  decide

theorem witness_EveryStepAnswersANextState : State.reset.rs ≠ .running := by decide

/-- The clauses of `EventsInPriorityOrder`, in order, each at a boundary. -/
theorem witness_EventsInPriorityOrder :
    (base 0xFE [0x01]).rs = .running ∧ 254 ≤ (base 0xFE [0x01]).pc.toNat ∧
    ((base 0xFD [0x00]).pc.toNat ≤ 253 ∧ (base 0xFD [0x00]).memRead 0xFD ∉ opcodeBytes) ∧
    ((base 0xFD [0x82, 0x08]).memRead 0xFD = 0x82 ∧ 7 < ((base 0xFD [0x82, 0x08]).memRead 0xFE).toNat) ∧
    ((base 0xFD [0xA7, 0x07, 0x08]).memRead 0xFE = 7 ∧ 7 < ((base 0xFD [0xA7, 0x07, 0x08]).memRead 0xFF).toNat) ∧
    ((base 0xFD [0x82, 0x07, 0xFF]).pc.toNat = 253 ∧ (base 0xFD [0xA0, 0x07, 0x07]).memRead 0xFF = 7) ∧
    ((base 0xFD [0x01]).memRead 0xFD = 0x01 ∧ (base 0xFD [0x11]).memRead 0xFD = 0x11) ∧
    ((base 0xFD [0x47, 0x07]).memRead 0xFD = 0x47 ∧ (base 0xFD [0x47, 0x07]).memRead 0xFE = 7) ∧
    ((base 0xFC [0x82, 0x07, 0xFF]).pc.toNat ≤ 252 ∧ (base 0xFC [0xA2, 0x07, 0x07]).memRead 0xFE = 7) := by decide

/-- The four ends of `RunEndsInThreeWays`. -/
theorem witness_RunEndsInThreeWays :
    (one (base 0 [0x01])).rs = .halted ∧ (one (base 0 [0xFF])).rs = .stopped ∧
    (one (base 0xFF [])).cause = .address ∧ (one (base 0 [0x47, 0x08])).cause = .regIndex := by decide

theorem witness_RunningIntoAnUnwrittenCellStops : Fetches (base 0xFD []) ∧ (base 0xFD []).memRead 0xFD = 0 :=
  ⟨⟨rfl, by decide⟩, by decide⟩

theorem witness_TerminalMeansTerminal :
    (one (base 0 [0x01])).rs = .halted ∧ (one (base 0 [0xFF])).rs = .stopped ∧ (one (base 0xFF [])).rs = .faulted := by
  decide

/-- The hypotheses of the clauses of the 3-byte instructions' statements (LDI, MUL, ADD, CMP): the effect at 252, the
fetch fault at 254, a bad `a` and a bad `b` at 253, and the advance fault at 253. -/
theorem witness_three_byte_instructions :
    (base 0xFC []).rs = .running ∧ (base 0xFC []).pc.toNat ≤ 252 ∧ 254 ≤ (base 0xFE []).pc.toNat ∧
    (base 0xFD []).pc.toNat = 253 ∧ 7 < (8 : Byte).toNat ∧ (7 : Byte).toNat ≤ 7 := by decide

/-- The hypotheses of the clauses of the 2-byte and 1-byte instructions' statements (PRN, PUSH, POP, CALL, JMP, JEQ, JNE,
HLT, RET): the effect at 253 with memory in canonical form, the fetch fault at 254, a bad `a` at 253. -/
theorem witness_short_instructions :
    Fetches (base 0xFD []) ∧ (base 0xFD []).mem.wf = true ∧ 254 ≤ (base 0xFE []).pc.toNat ∧ 7 < (8 : Byte).toNat :=
  ⟨⟨rfl, by decide⟩, by decide, by decide, by decide⟩

/-- The clauses of `CmpSetsExactlyOneFlag` and of the ALU's statements: equal, less, greater. -/
theorem witness_comparisons : (0 : Byte).toNat = (0 : Byte).toNat ∧ (0x7F : Byte).toNat < (0x80 : Byte).toNat ∧
    (0x80 : Byte).toNat > (0x7F : Byte).toNat := by decide

/-- The clauses of `JeqJumpsWhenEqual` and `JneJumpsWhenNotEqual`: bit 0 set, bit 0 clear. -/
theorem witness_equal_flag : ((base 0 []).setFlags 1).fl.toNat % 2 = 1 ∧ ((base 0 []).setFlags 4).fl.toNat % 2 = 0 := by
  decide

/-- The hypotheses of the last clause of `LdiLoadsItsImmediate`. -/
theorem witness_LdiThenPrn : (base 0xFA []).rs = .running ∧ (base 0xFA []).pc.toNat ≤ 250 := by decide

theorem witness_UnsupportedAluOperationIsNeverReached :
    step { base 0 [0x01] with rs := .faulted, cause := .aluUnsupported } =
      .next { base 0 [0x01] with rs := .faulted, cause := .aluUnsupported } := rfl

theorem witness_RegistersChangeByTheTable : (one (base 0 [0x82, 0x07, 0x80])).reg 7 ≠ (base 0 [0x82, 0x07, 0x80]).reg 7 := by
  decide

theorem witness_OnlyPushAndCallWriteMemory : (base 0 [0x50, 0x00]).mem.wf = true ∧
    (one (base 0 [0x50, 0x00])).memRead 0xF3 ≠ (base 0 [0x50, 0x00]).memRead 0xF3 := by decide

/-- The clauses of `FlagsAreWrittenByCmpAndReadByJumps`: a step that changes FL, a step of another instruction than a
conditional jump, and two FL with the same bit 0. -/
theorem witness_FlagsAreWrittenByCmpAndReadByJumps :
    (one (base 0 [0xA7, 0x00, 0x00])).fl ≠ (base 0 [0xA7, 0x00, 0x00]).fl ∧
    decode (base 0 [0xA0, 0x00, 0x00]).fetched = .ok (.add 0 0, []) ∧ (2 : Byte).toNat % 2 = (4 : Byte).toNat % 2 := by
  decide

/-- The clauses of `FlagsHoldAtMostOneBit`. -/
theorem witness_FlagsHoldAtMostOneBit :
    Reachable State.reset ∧ RunsAt (base 0xFC [0xA7, 0x00, 0x07]) (.cmp 0 7) ∧
    (one (base 0xFC [0xA7, 0x00, 0x07])).rs = .running ∧ decode (base 0 [0x01]).fetched = .ok (.hlt, [0, 0]) ∧
    ((base 0 [0x01]).setFlags 4).fl = 4 :=
  ⟨.reset, ⟨⟨rfl, by decide⟩, [], by decide⟩, by decide, by decide, by decide⟩

theorem witness_OutputGrowsByPrnOnly : step (base 0 [0x47, 0x07]) = .next (one (base 0 [0x47, 0x07])) := rfl

/-- The clauses of `TransferToTheTopFaultsOnTheNextStep`: JMP, JEQ with E set, JNE with E clear, CALL by register 7, RET,
each to 254. -/
theorem witness_TransferToTheTopFaultsOnTheNextStep :
    (RunsAt (base1 0 [0x54, 0x00] 0 0xFE) (.jmp (regOperand 0)) ∧ 254 ≤ ((base1 0 [0x54, 0x00] 0 0xFE).reg 0).toNat) ∧
    (RunsAt ((base1 0 [0x55, 0x00] 0 0xFE).setFlags 1) (.jeq (regOperand 0)) ∧
      ((base1 0 [0x55, 0x00] 0 0xFE).setFlags 1).fl.toNat % 2 = 1) ∧
    (RunsAt ((base1 0 [0x56, 0x00] 0 0xFE).setFlags 4) (.jne (regOperand 0)) ∧
      ((base1 0 [0x56, 0x00] 0 0xFE).setFlags 4).fl.toNat % 2 = 0) ∧
    (RunsAt (base1 0 [0x50, 0x07] 7 0xFF) (.call (regOperand 7)) ∧
      254 ≤ (if (7 : Fin 8) = 7 then (base1 0 [0x50, 0x07] 7 0xFF).reg 7 - 1 else 0).toNat) ∧
    (RunsAt ((base 0 [0x11]).memWrite 0xF4 0xFE) .ret ∧ 254 ≤ (((base 0 [0x11]).memWrite 0xF4 0xFE).memRead 0xF4).toNat) :=
  ⟨⟨⟨⟨rfl, by decide⟩, [0], by decide⟩, by decide⟩, ⟨⟨⟨rfl, by decide⟩, [0], by decide⟩, by decide⟩,
    ⟨⟨⟨rfl, by decide⟩, [0], by decide⟩, by decide⟩, ⟨⟨⟨rfl, by decide⟩, [0], by decide⟩, by decide⟩,
    ⟨⟨⟨rfl, by decide⟩, [0, 0], by decide⟩, by decide⟩⟩

theorem witness_JeqAndJneAreOpposite : Fetches (base 0xFD []) ∧
    ((base 0xFD []).reg 7).toNat ≠ (base 0xFD []).pc.toNat + 2 := ⟨⟨rfl, by decide⟩, by decide⟩

theorem witness_SelfJumpRunsForEver : RunsAt (base1 0x10 [0x54, 0x02] 2 0x10) (.jmp (regOperand 2)) ∧
    (base1 0x10 [0x54, 0x02] 2 0x10).reg 2 = (base1 0x10 [0x54, 0x02] 2 0x10).pc :=
  ⟨⟨⟨rfl, by decide⟩, [0], by decide⟩, by decide⟩

/-- The clauses of `StoreIsSeenByTheNextFetch`: a PUSH whose store lands on the operand byte after the next opcode, at the
top of the code space, and CALL R7. -/
theorem witness_StoreIsSeenByTheNextFetch :
    (RunsAt (base1 0xFB [0x45, 0x00] 7 0xFF) (.push (regOperand 0)) ∧ (base1 0xFB [0x45, 0x00] 7 0xFF).mem.wf = true ∧
      (base1 0xFB [0x45, 0x00] 7 0xFF).reg 7 - 1 = (base1 0xFB [0x45, 0x00] 7 0xFF).pc + 3) ∧
    (RunsAt (base 0x20 [0x50, 0x07]) (.call (regOperand 7)) ∧ (base 0x20 [0x50, 0x07]).mem.wf = true) :=
  ⟨⟨⟨⟨rfl, by decide⟩, [0], by decide⟩, by decide, by decide⟩, ⟨⟨rfl, by decide⟩, [0], by decide⟩, by decide⟩

/-- A state that meets every hypothesis of `PushThenPopRestores`, at the top of the code space and across the wrap of SP. -/
def pushPop : State := (base 0xFB [0x45, 0x06, 0x46, 0x00]).setReg 7 0

theorem witness_PushThenPopRestores :
    pushPop.rs = .running ∧ pushPop.mem.wf = true ∧ pushPop.pc.toNat ≤ 251 ∧
    pushPop.memRead pushPop.pc = 0x45 ∧ pushPop.memRead (pushPop.pc + 1) = regOperand 6 ∧
    pushPop.memRead (pushPop.pc + 2) = 0x46 ∧ pushPop.memRead (pushPop.pc + 3) = regOperand 0 ∧
    pushPop.reg 7 - 1 ≠ pushPop.pc + 2 ∧ pushPop.reg 7 - 1 ≠ pushPop.pc + 3 ∧ (6 : Fin 8) ≠ 7 ∧ (0 : Fin 8) ≠ 7 := by decide

theorem witness_NestedPushesAndPopsRestoreAll :
    (base 0xF3 []).rs = .running ∧ (base 0xF3 []).mem.wf = true ∧ (7 : Fin 8) ∉ [0, 6, 0] ∧
    (base 0xF3 []).pc.toNat + 4 * [0, 6, 0].length ≤ 255 := by decide

theorem witness_RetUndoesCall :
    Fetches (base 0xFD []) ∧ (base 0xFD []).mem.wf = true ∧
    exec (.call (regOperand 0)) (base 0xFD []) =
      .next ((((base 0xFD []).setReg 7 0xF3).memWrite 0xF3 0xFF).setPc 0) ∧
    Fetches (((base 0 []).setReg 7 0xF3).memWrite 0xF3 0xFF) ∧
    (((base 0 []).setReg 7 0xF3).memWrite 0xF3 0xFF).memRead 0xF3 = (base 0xFD []).pc + 2 :=
  ⟨⟨rfl, by decide⟩, by decide, rfl, ⟨rfl, by decide⟩, by decide⟩

theorem witness_HostTransactions :
    (State.reset.rs = .idle ∧ State.reset.mem.wf = true) ∧ (base 0 []).rs ≠ .idle := by decide

theorem witness_StartRunsFromAddressZero : Reachable State.reset ∧ State.reset.rs = .idle := ⟨.reset, rfl⟩

theorem witness_LaunchState :
    256 < (List.replicate 257 (0 : Byte)).length ∧ (List.replicate 256 (0 : Byte)).length ≤ 256 := by
  simp only [List.length_replicate]
  decide

/-- A state that is not the reset state, meets the invariant, and steps. -/
theorem witness_EveryStepKeepsTheInvariant : (base 0xFD [0x01]).Inv ∧
    step (base 0xFD [0x01]) = .next (one (base 0xFD [0x01])) :=
  ⟨⟨by decide, .inl rfl, ⟨rfl, rfl, rfl⟩⟩, rfl⟩

theorem witness_EveryTransactionKeepsTheInvariant : (base 0 [0x01]).Inv :=
  ⟨by decide, .inl rfl, ⟨rfl, rfl, rfl⟩⟩

theorem witness_ReachableStatesMeetTheInvariant :
    Reachable (one (State.reset.transact .start)) ∧ (one (State.reset.transact .start)).rs = .stopped ∧
    (one (State.reset.transact .start)).ended = true :=
  ⟨.step (.transact .start .reset) (rfl : step (State.reset.transact .start) = .next (one (State.reset.transact .start))),
    by decide, by decide⟩

theorem witness_AssemblyIsWellFormedInstructions :
    assemble ["loop: JMP R0".toList] = some [0x54, 0x00] ∧ numerals.length = 3 ∧
    (∀ i ∈ [Instr.ldi 7 255, Instr.cmp 0 7, Instr.ret], i.wellFormed = true) ∧ IsLabel ['e', '_', '1'] ∧
    (0x07 : Byte).toNat = ([Instr.ldi 7 255, Instr.cmp 0 7, Instr.ret].flatMap encode).length :=
  ⟨by decide, rfl, by decide, ⟨by decide, by simp⟩, by decide⟩

/-- R72's own example, and the other spellings of its immediate. -/
theorem test_spelling : numerals.map (fun n => spelling n (.ldi 0 8)) =
    ["LDI R0, 8".toList, "LDI R0, 0x8".toList, "LDI R0, 0b1000".toList] := by decide

end Sys2Proof.Tests
end

section
/-! The range checks and the register-index operand under the two alternative policies (spec 00_scope.md R5, decisions
D6 and D8), which this hardware does not take. -/

open Sys2Proof Sys2Proof.Machine

namespace Sys2Proof.Proofs.Scope

@[simp] theorem fetchCheck_wrap (pc : Byte) : fetchCheck .wrap pc = .ok () := rfl

@[simp] theorem advanceCheck_wrap (pc : Byte) (len : Nat) : advanceCheck .wrap pc len = .ok () := rfl

@[simp] theorem regIndex_mask (v : Byte) :
    regIndex .mask v = .ok ⟨v.toNat % 8, Nat.mod_lt _ (by decide)⟩ := rfl

/-- Settles O7: each conjunct is what one check answers under the alternative policy. -/
theorem alternativePolicies : Obligations.AlternativePolicies :=
  ⟨fun pc => ⟨fetchCheck_wrap pc, advanceCheck_wrap pc⟩, fun v => ⟨_, regIndex_mask v, rfl⟩⟩

end Sys2Proof.Proofs.Scope
end

section
/-! The state of the machine (spec 10_state.md): what an instruction's effect and a step leave unchanged, the invariant
of R33, the flags of R19 to R21, and the fetch fault at the top of memory. -/

open Sys2Proof Sys2Proof.Machine Sys2Proof.Statements

namespace Sys2Proof.Proofs.MachineState

/-! ## Operand bytes and reset values -/

@[simp] theorem regOperand_inj {i j : Fin 8} : regOperand i = regOperand j ↔ i = j := by
  rw [← BitVec.toNat_inj, toNat_regOperand, toNat_regOperand, Fin.val_inj]

/-- The table of R14 writes register 7 by its number. -/
@[simp] theorem regOperand_eq_seven {j : Fin 8} : regOperand j = 7#8 ↔ j = 7 :=
  regOperand_inj (j := 7)

/-- Settles O44: RESET answers the fixed state `State.reset`, whose fields are read off. -/
theorem resetLeavesTheResetValues : Obligations.ResetLeavesTheResetValues := fun s =>
  ⟨State.reset, s.transact_reset, fun _ => rfl, by decide, rfl, rfl, rfl, rfl, rfl, rfl, rfl, rfl, rfl⟩

/-- Settles O48: the reset state is IDLE with an empty memory and FL = 0. -/
theorem resetMeetsTheInvariant : Obligations.ResetMeetsTheInvariant where
  mem := State.wf_reset
  flags := .inl rfl
  records := ⟨rfl, rfl, rfl, rfl, rfl, rfl⟩

/-! ## What an effect and a step leave unchanged -/

/-- A comparison sets exactly one of the three flag bits (R21, R116). -/
theorem compareFlags_one_bit (va vb : Byte) :
    compareFlags va vb = 1 ∨ compareFlags va vb = 2 ∨ compareFlags va vb = 4 := by
  unfold compareFlags
  split_ifs
  · exact .inl rfl
  · exact .inr (.inr rfl)
  · exact .inr (.inl rfl)

/-- What the effect of `i` can change of each element of the state but PC (R14, R20, R27, R41). -/
structure Frame (i : Instr) (s t : State) : Prop where
  regs : ∀ j, regOperand j ∉ registersWritten i → t.reg j = s.reg j
  mem : t.mem = s.mem ∨
    ((∃ a, i = .push a) ∨ ∃ a, i = .call a) ∧ ∃ v, t.mem = s.mem.write (s.reg 7 - 1) v
  fl : (∃ a b, i = .cmp a b) ∧ (t.fl = 1 ∨ t.fl = 2 ∨ t.fl = 4) ∨ t.fl = s.fl ∧ ∀ a b, i ≠ .cmp a b
  out : t.out = s.out ∨ ∃ r, i = .prn (regOperand r) ∧ t.out = s.out ++ [s.reg r]
  status : i = .hlt ∧ t = s.halt ∨ StatusKept s t

/-- Every instruction's effect stays within its frame. -/
theorem effect_frame {i : Instr} {s t : State} (h : Effect i s t) : Frame i s t := by
  have kept : StatusKept s s := ⟨rfl, rfl, rfl, rfl⟩
  cases i with
  | ldi a b =>
    obtain ⟨r, rfl, -, rfl⟩ := h
    exact ⟨by simp +contextual [registersWritten, @eq_comm (Fin 8)],
      .inl rfl, .inr ⟨rfl, nofun⟩, .inl rfl, .inr kept⟩
  | mul a b | add a b =>
    obtain ⟨r, q, rfl, -, -, rfl⟩ := h
    exact ⟨by simp +contextual [registersWritten, @eq_comm (Fin 8)],
      .inl rfl, .inr ⟨rfl, nofun⟩, .inl rfl, .inr kept⟩
  | cmp a b =>
    obtain ⟨r, q, -, -, -, rfl⟩ := h
    exact ⟨fun _ _ => rfl, .inl rfl, .inl ⟨⟨a, b, rfl⟩, compareFlags_one_bit _ _⟩, .inl rfl, .inr kept⟩
  | prn a =>
    obtain ⟨r, rfl, rfl⟩ := h
    exact ⟨fun _ _ => rfl, .inl rfl, .inr ⟨rfl, nofun⟩, .inr ⟨r, rfl, rfl⟩, .inr kept⟩
  | hlt =>
    obtain rfl := h
    exact ⟨fun _ _ => rfl, .inl rfl, .inr ⟨rfl, nofun⟩, .inl rfl, .inl ⟨rfl, rfl⟩⟩
  | push a =>
    obtain ⟨r, rfl, rfl⟩ := h
    exact ⟨by simp +contextual [registersWritten, @eq_comm (Fin 8)],
      .inr ⟨.inl ⟨_, rfl⟩, _, congrArg (s.mem.write · _) s.sp_decSp⟩, .inr ⟨rfl, nofun⟩, .inl rfl, .inr kept⟩
  | call a =>
    obtain ⟨r, rfl, rfl⟩ := h
    exact ⟨by simp +contextual [registersWritten, @eq_comm (Fin 8)],
      .inr ⟨.inr ⟨_, rfl⟩, _, congrArg (s.mem.write · _) s.sp_decSp⟩, .inr ⟨rfl, nofun⟩, .inl rfl, .inr kept⟩
  | pop a =>
    obtain ⟨r, rfl, rfl⟩ := h
    exact ⟨by simp +contextual [registersWritten, @eq_comm (Fin 8)],
      .inl rfl, .inr ⟨rfl, nofun⟩, .inl rfl, .inr kept⟩
  | ret =>
    obtain rfl := h
    exact ⟨by simp +contextual [registersWritten, @eq_comm (Fin 8)],
      .inl rfl, .inr ⟨rfl, nofun⟩, .inl rfl, .inr kept⟩
  | jmp a =>
    obtain ⟨r, -, rfl⟩ := h
    exact ⟨fun _ _ => rfl, .inl rfl, .inr ⟨rfl, nofun⟩, .inl rfl, .inr kept⟩
  | jeq a | jne a =>
    obtain ⟨r, -, rfl⟩ := h
    split <;> exact ⟨fun _ _ => rfl, .inl rfl, .inr ⟨rfl, nofun⟩, .inl rfl, .inr kept⟩

/-- A step does nothing, raises a fault, stops at an unknown opcode, or has the effect of the instruction it runs. -/
theorem step_outcomes {s t : State} (h : step s = .next t) :
    t = s ∨
    (s.rs = .running ∧ ∃ ops, RaisedFrom ops s t) ∨
    (Fetches s ∧ coreConfig.mnemonicOf (s.memRead s.pc) = none ∧ t = s.stopUnknownOpcode (s.memRead s.pc)) ∨
    ∃ i, RunsAt s i ∧ Effect i s t := by
  obtain ⟨-, ht⟩ | ⟨hr, hp, rfl⟩ | ⟨hr, hp, hm, ht⟩ | ⟨hr, hp, i, rest, hd, he⟩ := step_cases h
  · exact .inl ht
  · exact .inr (.inl ⟨hr, [], raisedFrom_address (by omega)⟩)
  · exact .inr (.inr (.inl ⟨⟨hr, hp⟩, hm, ht⟩))
  · obtain hf | ⟨-, heff⟩ := exec_cases he
    · exact .inr (.inl ⟨hr, _, hf⟩)
    · exact .inr (.inr (.inr ⟨i, ⟨⟨hr, hp⟩, rest, hd⟩, heff⟩))

/-- A step has the effect of the instruction it runs, or changes none of registers, FL and OUT. -/
theorem step_effect_or_kept {s t : State} (h : step s = .next t) :
    (∃ i, RunsAt s i ∧ Effect i s t) ∨ t.x = s.x ∧ t.fl = s.fl ∧ t.out = s.out := by
  obtain rfl | ⟨-, ops, tr, rfl, -⟩ | ⟨-, -, rfl⟩ | he := step_outcomes h
  · exact .inr ⟨rfl, rfl, rfl⟩
  · exact .inr ⟨rfl, rfl, rfl⟩
  · exact .inr ⟨rfl, rfl, rfl⟩
  · exact .inl he

/-- A step of a core that fetches `i` is the meaning of `i` (R86). -/
theorem step_of_runsAt {s : State} {i : Instr} (h : RunsAt s i) : step s = exec i s := by
  obtain ⟨⟨hr, hp⟩, rest, hd⟩ := h
  simp [step_running hr, cycle, hp, hd]

/-- Settles O32: an effect changes the registers of its row of the table, every other outcome none. -/
theorem registersChangeByTheTable : Obligations.RegistersChangeByTheTable := by
  intro s t j h hne
  obtain ⟨i, hi, he⟩ | ⟨hx, -, -⟩ := step_effect_or_kept h
  · exact ⟨i, hi, by_contra fun hj => hne ((effect_frame he).regs j hj)⟩
  · exact absurd (congrArg (·[j]) hx) hne

/-- Settles O36: only the effect of PRN reaches OUT. -/
theorem outputGrowsByPrnOnly : Obligations.OutputGrowsByPrnOnly := by
  intro s t h
  obtain ⟨i, hi, he⟩ | ⟨-, -, ho⟩ := step_effect_or_kept h
  · exact (effect_frame he).out.imp id fun ⟨r, hr, ho⟩ => ⟨r, hr ▸ hi, ho⟩
  · exact .inl ho

/-! ## The invariant -/

/-- The bytes `State.recordsOk` names are the opcode map of this hardware (R66). -/
theorem opcodeBytes_eq : opcodeBytes = Mnemonic.all.map opcodeMap := rfl

/-- A byte that no mnemonic has is none of the thirteen (R68). -/
theorem not_mem_opcodeBytes {b : Byte} (h : coreConfig.mnemonicOf b = none) : b ∉ opcodeBytes := by
  rw [opcodeBytes_eq, List.mem_map]
  rintro ⟨m, -, hm⟩
  exact mnemonicOf_eq_none.mp h m (by cases m <;> rfl) hm

/-- A core that fetches HLT is at a cell that holds HLT's opcode. -/
theorem memRead_pc_of_runsAt_hlt {s : State} (h : RunsAt s .hlt) : s.memRead s.pc = 0x01 := by
  obtain ⟨-, rest, hd⟩ := h
  exact (mnemonicOf_eq_some (fetched_operands hd).1).2.symm

/-- While the core runs the records say nothing yet. -/
theorem recordsOk_running {s : State} (hr : s.rs = .running) :
    s.recordsOk ↔ s.badop = 0 ∧ s.cause = .none ∧ s.info = 0 := by
  simp [State.recordsOk, hr]

/-- A fault raised by a running core leaves consistent records (R161). -/
theorem recordsOk_of_raisedFrom {s t : State} {ops : List Byte} (hr : s.rs = .running) (hs : s.recordsOk)
    (h : RaisedFrom ops s t) : t.recordsOk := by
  obtain ⟨hb, -, -⟩ := (recordsOk_running hr).mp hs
  obtain ⟨tr, rfl, hf | ⟨hc, hi, -, hp⟩⟩ := h
  · exact ⟨hb, .inl hf⟩
  · exact ⟨hb, .inr ⟨hc, hi, hp⟩⟩

/-- The unknown-opcode stop leaves consistent records (R163). -/
theorem recordsOk_stopUnknownOpcode {s : State} (hf : Fetches s) (hs : s.recordsOk)
    (hm : coreConfig.mnemonicOf (s.memRead s.pc) = none) :
    (s.stopUnknownOpcode (s.memRead s.pc)).recordsOk := by
  obtain ⟨-, hc, hi⟩ := (recordsOk_running hf.1).mp hs
  exact ⟨hc, hi, hf.2, rfl, not_mem_opcodeBytes hm⟩

/-- The effect of a fetched instruction leaves consistent records: a HLT says where it stands, and every other keeps a
running core's. -/
theorem recordsOk_of_effect {i : Instr} {s t : State} (hi : RunsAt s i) (hs : s.recordsOk) (he : Effect i s t) :
    t.recordsOk := by
  have hr : s.rs = .running := hi.1.1
  obtain ⟨hb, hc, hn⟩ := (recordsOk_running hr).mp hs
  obtain ⟨rfl, rfl⟩ | ⟨krs, kb, kc, kn⟩ := (effect_frame he).status
  · exact ⟨hb, hc, hn, hi.1.2, memRead_pc_of_runsAt_hlt (s := s) hi⟩
  · exact (recordsOk_running (krs.trans hr)).mpr ⟨kb.trans hb, kc.trans hc, kn.trans hn⟩

/-- The effect of a fetched instruction keeps the invariant. -/
theorem inv_of_effect {i : Instr} {s t : State} (hi : RunsAt s i) (hs : s.Inv) (he : Effect i s t) : t.Inv where
  mem := by
    obtain hm | ⟨-, v, hm⟩ := (effect_frame he).mem <;> rw [hm]
    · exact hs.mem
    · exact Memory.wf_write hs.mem _ v
  flags := by
    obtain ⟨-, hf⟩ | ⟨hf, -⟩ := (effect_frame he).fl
    · exact .inr hf
    · exact hf ▸ hs.flags
  records := recordsOk_of_effect hi hs.records he

/-- Settles O49: memory and FL change only by an effect, and each outcome of a step leaves its records. -/
theorem everyStepKeepsTheInvariant : Obligations.EveryStepKeepsTheInvariant := by
  intro s t hs h
  obtain rfl | ⟨hr, ops, hf⟩ | ⟨hf, hm, rfl⟩ | ⟨i, hi, he⟩ := step_outcomes h
  · exact hs
  · have hrec := recordsOk_of_raisedFrom hr hs.records hf
    obtain ⟨tr, rfl, -⟩ := hf
    exact ⟨hs.mem, hs.flags, hrec⟩
  · exact ⟨hs.mem, hs.flags, recordsOk_stopUnknownOpcode hf hs.records hm⟩
  · exact inv_of_effect hi hs he

/-- A transaction is RESET, or is ignored, or acts on an IDLE core: LOAD writes a cell, START starts it (R192). -/
theorem transact_cases (s : State) (op : HostOp) :
    op = .reset ∨ s.transact op = s ∨
      s.rs = .idle ∧ ((∃ a v, s.transact op = s.memWrite a v) ∨ s.transact op = s.started) := by
  by_cases hr : s.rs = .idle
  · cases op with
    | reset => exact .inl rfl
    | load a v => exact .inr (.inr ⟨hr, .inl ⟨a, v, State.transact_load hr a v⟩⟩)
    | start => exact .inr (.inr ⟨hr, .inr (State.transact_start hr)⟩)
  · cases op with
    | reset => exact .inl rfl
    | load a v => exact .inr (.inl (State.transact_ignored hr a v).1)
    | start => exact .inr (.inl (State.transact_ignored hr 0 0).2)

/-- Settles O50: the records of an IDLE core say nothing about memory, and imply those of a running one. -/
theorem everyTransactionKeepsTheInvariant : Obligations.EveryTransactionKeepsTheInvariant := by
  intro s op hs
  obtain rfl | heq | ⟨hr, ⟨a, v, heq⟩ | heq⟩ := transact_cases s op
  · exact resetMeetsTheInvariant
  · rwa [heq]
  all_goals
    have hrec := hs.records
    simp only [State.recordsOk, hr] at hrec
    rw [heq]
  · exact ⟨Memory.wf_write hs.mem a v, hs.flags, by simpa [State.recordsOk, hr] using hrec⟩
  · obtain ⟨hb, hc, hi, -⟩ := hrec
    exact ⟨hs.mem, hs.flags, hb, hc, hi⟩

/-- The invariant holds of every reachable state. -/
theorem inv_of_reachable {s : State} (h : Reachable s) : s.Inv := by
  induction h with
  | reset => exact resetMeetsTheInvariant
  | transact op _ ih => exact everyTransactionKeepsTheInvariant _ op ih
  | step _ taken ih => exact everyStepKeepsTheInvariant _ _ ih taken

/-- The codes of RS are the five of R23. -/
theorem code_le_four (r : RunStatus) : r.code.toNat ≤ 4 := by
  cases r <;> decide

/-- Consistent records name a cause only when FAULTED. -/
theorem cause_of_recordsOk {s : State} (h : s.recordsOk) (hr : s.rs ≠ .faulted) : s.cause = .none := by
  unfold State.recordsOk at h
  cases hs : s.rs <;> simp_all

/-- Consistent records name an unknown opcode only when STOPPED. -/
theorem badop_of_recordsOk {s : State} (h : s.recordsOk) (hr : s.rs ≠ .stopped) : s.badop = 0 := by
  unfold State.recordsOk at h
  cases hs : s.rs <;> simp_all

/-- A run that has ended takes no step (R168). -/
theorem step_of_ended {s : State} (h : s.ended = true) : step s = .next s :=
  step_not_running fun hr => by simp [State.ended, hr] at h

/-- Settles O51: the invariant by induction on how the state is reached, the rest from its records. -/
theorem reachableStatesMeetTheInvariant : Obligations.ReachableStatesMeetTheInvariant := by
  intro s h
  have hs := inv_of_reachable h
  exact ⟨hs, code_le_four s.rs, fun hr => by rw [cause_of_recordsOk hs.records hr]; rfl,
    badop_of_recordsOk hs.records, step_of_ended⟩

/-! ## The flags -/

/-- A step changes FL only by running CMP. -/
theorem step_fl_eq {s t : State} (h : step s = .next t) (hc : ∀ a b, ¬ RunsAt s (.cmp a b)) : t.fl = s.fl := by
  obtain ⟨i, hi, he⟩ | ⟨-, hf, -⟩ := step_effect_or_kept h
  · obtain ⟨⟨a, b, rfl⟩, -⟩ | ⟨hf, -⟩ := (effect_frame he).fl
    · exact absurd hi (hc a b)
    · exact hf
  · exact hf

/-- A step leaves FL or sets exactly one flag bit. -/
theorem step_fl_cases {s t : State} (h : step s = .next t) : t.fl = s.fl ∨ t.fl = 1 ∨ t.fl = 2 ∨ t.fl = 4 := by
  obtain ⟨i, -, he⟩ | ⟨-, hf, -⟩ := step_effect_or_kept h
  · exact (effect_frame he).fl.elim (fun hf => .inr hf.2) fun hf => .inl hf.1
  · exact .inl hf

/-- A CMP that executes leaves one flag bit set. -/
theorem fl_of_cmp {s t : State} {a b : Byte} (hc : RunsAt s (.cmp a b)) (h : step s = .next t)
    (hr : t.rs = .running) : t.fl = 1 ∨ t.fl = 2 ∨ t.fl = 4 := by
  rw [step_of_runsAt hc] at h
  obtain ⟨tr, rfl, -⟩ | ⟨-, he⟩ := exec_cases h
  · cases hr
  · obtain ⟨-, hf⟩ | ⟨-, hno⟩ := (effect_frame he).fl
    · exact hf
    · exact absurd rfl (hno a b)

/-- Settles O35: the values of FL are part of the invariant, and only a CMP's effect changes FL. -/
theorem flagsHoldAtMostOneBit : Obligations.FlagsHoldAtMostOneBit := by
  refine ⟨fun s h => (inv_of_reachable h).flags, rfl, fun _ _ => step_fl_eq, fun _ _ _ _ => fl_of_cmp, ?_⟩
  intro s t h hs
  obtain hf | hf := step_fl_cases h
  · exact hf ▸ hs
  · exact hf

/-! ## What FL reaches

The same step is taken from `s` and from `s.setFlags v`, and the two outcomes are compared by a relation. -/

@[simp] theorem fetched_setFlags (s : State) (v : Byte) : (s.setFlags v).fetched = s.fetched := rfl

/-- Whenever `o` answers a next state, so does `o'`, and the two are related by `R`. -/
def Matches (R : State → State → Prop) (o o' : StepOutcome) : Prop :=
  ∀ t, o = .next t → ∃ u, o' = .next u ∧ R t u

/-- The two states are the same but for FL. -/
def SameButFlags (t u : State) : Prop := ∃ w, u = t.setFlags w

/-- The two states are the same but for FL and PC. -/
def SameButFlagsAndPc (t u : State) : Prop := ∃ w p, u = (t.setFlags w).setPc p

theorem SameButFlags.toFlagsAndPc {t u : State} : SameButFlags t u → SameButFlagsAndPc t u
  | ⟨w, h⟩ => ⟨w, t.pc, h⟩

theorem Matches.mono {R R' : State → State → Prop} {o o' : StepOutcome} (h : Matches R o o')
    (sub : ∀ {t u}, R t u → R' t u) : Matches R' o o' := fun t ht =>
  let ⟨u, hu, hR⟩ := h t ht
  ⟨u, hu, sub hR⟩

theorem matches_next {R : State → State → Prop} {t u : State} (h : R t u) : Matches R (.next t) (.next u) := by
  intro t' ht
  cases ht
  exact ⟨u, rfl, h⟩

section
variable {R : State → State → Prop} {s : State} {v : Byte} (hR : ∀ t w, R t (t.setFlags w))
include hR

/-- A check raises the same fault whatever FL is, so it is enough to compare what goes on after it. -/
theorem matches_checked {α : Type} {check : Except Trap α} {k k' : α → StepOutcome}
    (hk : ∀ x, Matches R (k x) (k' x)) : Matches R (s.checked check k) ((s.setFlags v).checked check k') := by
  cases check with
  | ok x => exact hk x
  | error tr => exact matches_next (hR (s.raise tr) v)

/-- Steps from states that differ in FL compare as the meanings of the instruction fetched do. -/
theorem matches_step (hexec : ∀ i, RunsAt s i → Matches R (exec i s) (exec i (s.setFlags v))) :
    Matches R (step s) (step (s.setFlags v)) := by
  by_cases hr : s.rs = .running
  · rw [step_running hr, step_running (s := s.setFlags v) hr]
    obtain ⟨hp, hc⟩ | ⟨hp, ⟨e, hd⟩, hc⟩ | ⟨hp, i, rest, hd, hc⟩ := cycle_cases s <;>
      rw [hc, cycle, State.checked_checkFetch]
    · rw [if_neg (show ¬(s.setFlags v).pc.toNat ≤ 253 from Nat.not_le.mpr hp)]
      exact matches_next (hR (s.raise ⟨.address, s.pc⟩) v)
    · rw [if_pos (show (s.setFlags v).pc.toNat ≤ 253 from hp), fetched_setFlags, hd]
      exact matches_next (hR (s.stopUnknownOpcode (s.memRead s.pc)) v)
    · rw [if_pos (show (s.setFlags v).pc.toNat ≤ 253 from hp), fetched_setFlags, hd]
      exact hexec i ⟨⟨hr, hp⟩, rest, hd⟩
  · rw [step_not_running hr, step_not_running (s := s.setFlags v) hr]
    exact matches_next (hR s v)

end

theorem sameButFlags_setFlags (t : State) (w : Byte) : SameButFlags t (t.setFlags w) := ⟨w, rfl⟩

theorem sameButFlagsAndPc_setFlags (t : State) (w : Byte) : SameButFlagsAndPc t (t.setFlags w) := ⟨w, t.pc, rfl⟩

section
variable {s : State} {v : Byte}

/-- An ALU instruction does not read FL. -/
theorem aluStep_ignores_flags (op : AluOp) (a b : Byte) :
    Matches SameButFlags (aluStep op a b s) (aluStep op a b (s.setFlags v)) := by
  iterate 5 refine matches_checked sameButFlags_setFlags fun _ => ?_
  rename_i r
  cases r with
  | result w => exact matches_next ⟨v, rfl⟩
  | flags w => exact matches_next ⟨w, rfl⟩

/-- A jump that goes the same way does not read FL. -/
theorem jumpWhen_ignores_flags (taken : Bool) (a : Byte) :
    Matches SameButFlags (jumpWhen taken a s) (jumpWhen taken a (s.setFlags v)) := by
  iterate 2 refine matches_checked sameButFlags_setFlags fun _ => ?_
  cases taken <;> exact matches_next ⟨v, rfl⟩

/-- Which way a jump goes shows in PC only. -/
theorem jumpWhen_reaches_pc_only (taken taken' : Bool) (a : Byte) :
    Matches SameButFlagsAndPc (jumpWhen taken a s) (jumpWhen taken' a (s.setFlags v)) := by
  iterate 2 refine matches_checked sameButFlagsAndPc_setFlags fun _ => ?_
  cases taken <;> cases taken' <;> exact matches_next ⟨v, _, rfl⟩

/-- An instruction reads at most the E bit of FL, and only JEQ and JNE read that. -/
theorem exec_ignores_flags {i : Instr}
    (h : (s.setFlags v).flagE = s.flagE ∨ (∀ a, i ≠ .jeq a) ∧ ∀ a, i ≠ .jne a) :
    Matches SameButFlags (exec i s) (exec i (s.setFlags v)) := by
  have same := sameButFlags_setFlags
  cases i with
  | ldi a b =>
    exact matches_checked same fun _ => matches_checked same fun _ => matches_checked same fun _ =>
      matches_next ⟨v, rfl⟩
  | prn a | push a | pop a | call a =>
    exact matches_checked same fun _ => matches_checked same fun _ => matches_next ⟨v, rfl⟩
  | hlt | ret => exact matches_checked same fun _ => matches_next ⟨v, rfl⟩
  | mul a b => exact aluStep_ignores_flags .mul a b
  | add a b => exact aluStep_ignores_flags .add a b
  | cmp a b => exact aluStep_ignores_flags .cmp a b
  | jmp a => exact jumpWhen_ignores_flags true a
  | jeq a =>
    obtain hE | ⟨hne, -⟩ := h
    · simpa only [exec, execJeq, hE] using jumpWhen_ignores_flags s.flagE a
    · exact absurd rfl (hne a)
  | jne a =>
    obtain hE | ⟨-, hne⟩ := h
    · simpa only [exec, execJne, hE] using jumpWhen_ignores_flags (!s.flagE) a
    · exact absurd rfl (hne a)

/-- What FL holds reaches nothing but FL and PC. -/
theorem exec_flags_reach_pc_only (i : Instr) : Matches SameButFlagsAndPc (exec i s) (exec i (s.setFlags v)) := by
  cases i with
  | jeq a => exact jumpWhen_reaches_pc_only _ _ a
  | jne a => exact jumpWhen_reaches_pc_only _ _ a
  | _ => exact (exec_ignores_flags (.inr (by simp))).mono SameButFlags.toFlagsAndPc

end

/-- The E bit is the lowest bit of FL (R19). -/
theorem flagE_eq (s : State) : s.flagE = decide (s.fl.toNat % 2 = 1) := by
  simp [State.flagE, BitVec.getLsbD, Nat.testBit_zero]

/-- A transaction other than RESET keeps FL. -/
theorem transact_fl (s : State) (op : HostOp) :
    (s.transact op).fl = s.fl ∨ op = .reset ∧ (s.transact op).fl = 0 := by
  obtain rfl | h | ⟨-, ⟨a, v, h⟩ | h⟩ := transact_cases s op
  · exact .inr ⟨rfl, rfl⟩
  all_goals exact .inl (by simp [h])

/-- Settles O34: CMP alone writes FL, and the step from `s` with another FL is compared with the step from `s`. -/
theorem flagsAreWrittenByCmpAndReadByJumps : Obligations.FlagsAreWrittenByCmpAndReadByJumps := by
  refine ⟨fun s t h hne => ?_, transact_fl, fun s t v h hjeq hjne => ?_, fun s t v h hv => ?_, fun s t v h => ?_⟩
  · by_contra hno
    exact hne (step_fl_eq h fun a b hc => hno ⟨a, b, hc⟩)
  · have read : ∀ i, RunsAt s i → Matches SameButFlags (exec i s) (exec i (s.setFlags v)) := fun i hi =>
      exec_ignores_flags (.inr ⟨fun a ha => hjeq a (ha ▸ hi), fun a ha => hjne a (ha ▸ hi)⟩)
    obtain ⟨u, hu, w, rfl⟩ := matches_step sameButFlags_setFlags read t h
    exact ⟨w, hu⟩
  · have hE : (s.setFlags v).flagE = s.flagE := by simp [flagE_eq, hv]
    obtain ⟨u, hu, w, rfl⟩ := matches_step sameButFlags_setFlags (fun i _ => exec_ignores_flags (.inl hE)) t h
    exact ⟨w, hu⟩
  · obtain ⟨u, hu, w, p, rfl⟩ :=
      matches_step (v := v) sameButFlagsAndPc_setFlags (fun i _ => exec_flags_reach_pc_only i) t h
    exact ⟨w, p, hu⟩

/-! ## Transfers to the top of memory -/

/-- At 254 and 255 no instruction can be fetched (R81). -/
theorem step_at_top {s : State} (hr : s.rs = .running) (hp : 254 ≤ s.pc.toNat) : step s = addressFault s := by
  rw [step_running hr, cycle, State.checked_checkFetch, if_neg (by omega)]
  rfl

/-- A step whose meaning goes on at 254 or 255 succeeds, and the next one faults there. -/
theorem fault_after_transfer {s t : State} {i : Instr} (hi : RunsAt s i) (he : exec i s = .next t)
    (hr : t.rs = s.rs) (hp : 254 ≤ t.pc.toNat) :
    step s = .next t ∧ t.rs = .running ∧ step t = addressFault t :=
  have hrun : t.rs = .running := hr.trans hi.1.1
  ⟨(step_of_runsAt hi).trans he, hrun, step_at_top hrun hp⟩

/-- Where CALL goes: the register it names, read after the decrement of register 7 (R140, D20). -/
theorem call_target (s : State) (i : Fin 8) : s.decSp.reg i = if i = 7 then s.reg 7 - 1 else s.reg i := by
  simp [State.sp_eq_reg, eq_comm]

/-- Settles O37: each transfer is its meaning with the checks passed, and the step after it fails the fetch check. -/
theorem transferToTheTopFaultsOnTheNextStep : Obligations.TransferToTheTopFaultsOnTheNextStep := by
  intro s i
  have jump : ∀ (taken : Bool) (j : Instr), RunsAt s j → exec j s = jumpWhen taken (regOperand i) s →
      taken = true → 254 ≤ (s.reg i).toNat →
      ∃ t, step s = .next t ∧ t.rs = .running ∧ t.pc = s.reg i ∧ step t = addressFault t := by
    rintro taken j hj hex rfl hp
    obtain ⟨h1, h2, h3⟩ := fault_after_transfer hj (hex.trans (jumpWhen_next hj.1.2 true i)) rfl hp
    exact ⟨_, h1, h2, rfl, h3⟩
  refine ⟨fun h => jump true _ h rfl rfl, fun h hE => jump s.flagE _ h rfl (by simp [flagE_eq, hE]),
    fun h hE => jump (!s.flagE) _ h rfl (by simp [flagE_eq, hE]), fun h hp => ?_, fun h hp => ?_⟩
  · rw [← call_target] at hp ⊢
    obtain ⟨h1, h2, h3⟩ := fault_after_transfer h (execCall_next h.1.2 i) rfl hp
    exact ⟨_, h1, h2, rfl, h3⟩
  · obtain ⟨h1, h2, h3⟩ := fault_after_transfer h (execRet_next h.1.2) rfl hp
    exact ⟨_, h1, h2, rfl, h3⟩

end Sys2Proof.Proofs.MachineState
end

section
/-! Memory (spec 20_memory.md): the canonical form is determined by its reads, which step writes which cell (R41), and a
stored byte is what the next fetch reads (R52). -/

open Sys2Proof Sys2Proof.Machine Sys2Proof.Statements Sys2Proof.Proofs.MachineState

namespace Sys2Proof.Proofs.MemoryAccess

/-! ## The canonical form -/

/-- What the canonical form says of its first entry. -/
theorem wfFrom_cons {lo k : Nat} {v : Byte} {rest : Memory} : Memory.wfFrom lo ((k, v) :: rest) = true ↔
    lo ≤ k ∧ k < 256 ∧ v ≠ Memory.unlisted ∧ Memory.wfFrom (k + 1) rest = true := by
  simp [Memory.wfFrom, and_assoc]

@[simp] theorem readAt_cons_self (k : Nat) (v : Byte) (rest : Memory) :
    Memory.readAt k ((k, v) :: rest) = v := if_pos rfl

theorem readAt_cons_ne {k a : Nat} (h : k ≠ a) (v : Byte) (rest : Memory) :
    Memory.readAt a ((k, v) :: rest) = Memory.readAt a rest := if_neg h

/-- Beyond the last address nothing is listed. -/
theorem readAt_beyond {m : Memory} {lo a : Nat} (w : Memory.wfFrom lo m = true) (h : 256 ≤ a) :
    Memory.readAt a m = Memory.unlisted := by
  induction m generalizing lo with
  | nil => rfl
  | cons c rest ih =>
    obtain ⟨-, hk, -, hw⟩ := wfFrom_cons.mp w
    rw [readAt_cons_ne (by omega)]
    exact ih hw

/-- Of two lists that read alike, neither begins before the other: its first entry would read as unlisted there. -/
theorem head_le_head {k k' : Nat} {v v' : Byte} {rest rest' : Memory} (hv : v ≠ Memory.unlisted)
    (w' : Memory.wfFrom (k' + 1) rest' = true)
    (h : Memory.readAt k ((k, v) :: rest) = Memory.readAt k ((k', v') :: rest')) : k' ≤ k := by
  by_contra hlt
  rw [readAt_cons_self, readAt_cons_ne (by omega), Memory.readAt_below w' (by omega)] at h
  exact hv h

/-- Canonical lists that read alike at every cell number are equal. -/
theorem eq_of_readAt_eq {m m' : Memory} {lo lo' : Nat} (w : Memory.wfFrom lo m = true)
    (w' : Memory.wfFrom lo' m' = true) (h : ∀ a, Memory.readAt a m = Memory.readAt a m') : m = m' := by
  induction m generalizing lo lo' m' with
  | nil =>
    cases m' with
    | nil => rfl
    | cons c' rest' =>
      obtain ⟨-, -, hv', -⟩ := wfFrom_cons.mp w'
      exact absurd ((readAt_cons_self ..).symm.trans (h c'.1).symm) hv'
  | cons c rest ih =>
    obtain ⟨k, v⟩ := c
    obtain ⟨-, -, hv, hw⟩ := wfFrom_cons.mp w
    cases m' with
    | nil => exact absurd ((readAt_cons_self ..).symm.trans (h k)) hv
    | cons c' rest' =>
      obtain ⟨k', v'⟩ := c'
      obtain ⟨-, -, hv', hw'⟩ := wfFrom_cons.mp w'
      obtain rfl : k = k' := le_antisymm (head_le_head hv' hw (h k').symm) (head_le_head hv hw' (h k))
      obtain rfl : v = v' := by simpa using h k
      have tails : ∀ a, Memory.readAt a rest = Memory.readAt a rest' := fun a => by
        obtain rfl | hne := eq_or_ne k a
        · rw [Memory.readAt_below hw k.lt_succ_self, Memory.readAt_below hw' k.lt_succ_self]
        · simpa only [readAt_cons_ne hne] using h a
      rw [ih hw hw' tails]

/-- Settles O8: beyond the 256 addresses canonical memories read alike, so the lists agree entry by entry. -/
theorem canonicalMemoryIsItsReads : Obligations.CanonicalMemoryIsItsReads := by
  intro m m' w w' h
  refine eq_of_readAt_eq w w' fun a => ?_
  obtain ha | ha := Nat.lt_or_ge a 256
  · simpa [Memory.read, Nat.mod_eq_of_lt ha] using h (Byte.narrow a)
  · rw [readAt_beyond w ha, readAt_beyond w' ha]

/-! ## What a step writes -/

/-- After a write to one cell, that cell reads as the byte written and every other as before. -/
theorem memRead_of_mem_eq_write {s t : State} {a v : Byte} (w : s.mem.wf = true) (h : t.mem = s.mem.write a v)
    (c : Byte) : t.memRead c = if c = a then v else s.memRead c :=
  (congrArg (·.read c) h).trans (Memory.read_write w a c v)

/-- A step writes the cell below the stack pointer, by PUSH or CALL, or leaves memory as it is. -/
theorem step_mem_cases {s t : State} (h : step s = .next t) :
    t.mem = s.mem ∨
      (∃ a, RunsAt s (.push a) ∨ RunsAt s (.call a)) ∧ ∃ v, t.mem = s.mem.write (s.reg 7 - 1) v := by
  obtain rfl | ⟨-, ops, tr, rfl, -⟩ | ⟨-, -, rfl⟩ | ⟨i, hi, he⟩ := step_outcomes h
  · exact .inl rfl
  · exact .inl rfl
  · exact .inl rfl
  · obtain hm | ⟨⟨a, rfl⟩ | ⟨a, rfl⟩, hw⟩ := (effect_frame he).mem
    · exact .inl hm
    · exact .inr ⟨⟨a, .inl hi⟩, hw⟩
    · exact .inr ⟨⟨a, .inr hi⟩, hw⟩

/-- Settles O33: the one write of a step changes the reading of no other cell. -/
theorem onlyPushAndCallWriteMemory : Obligations.OnlyPushAndCallWriteMemory := by
  intro s t c w h hne
  obtain hm | ⟨ha, v, hm⟩ := step_mem_cases h
  · exact absurd (congrArg (·.read c) hm) hne
  · exact ⟨by_contra fun hc => hne ((memRead_of_mem_eq_write w hm c).trans (if_neg hc)), ha⟩

/-! ## The fetch after a store -/

/-- A fetch sees the one cell that was written, whichever of the three it is. -/
theorem fetched_of_mem_eq_write {s t : State} {a v : Byte} (w : s.mem.wf = true) (h : t.mem = s.mem.write a v) :
    t.fetched = fetchedAfterStore s a v t.pc := by
  simp [State.fetched, fetchedAfterStore, memRead_of_mem_eq_write w h]

/-- The step of a fetched PUSH (R130): it goes on two bytes further, with the register named stored below the old stack
pointer. -/
theorem step_push {s : State} {i : Fin 8} (h : RunsAt s (.push (regOperand i))) :
    ∃ t, step s = .next t ∧ t.rs = .running ∧ t.pc = s.pc + 2 ∧
      t.mem = s.mem.write (s.reg 7 - 1) (if i = 7 then s.reg 7 - 1 else s.reg i) :=
  ⟨_, (step_of_runsAt h).trans (execPush_next h.1.2 i), h.1.1, rfl,
    congrArg₂ s.mem.write s.sp_decSp (call_target s i)⟩

/-- The step of a fetched CALL (R140): it goes to the register named, with the return address stored below the old stack
pointer. -/
theorem step_call {s : State} {i : Fin 8} (h : RunsAt s (.call (regOperand i))) :
    ∃ t, step s = .next t ∧ t.rs = .running ∧ t.pc = (if i = 7 then s.reg 7 - 1 else s.reg i) ∧
      t.mem = s.mem.write (s.reg 7 - 1) (s.pc + 2) :=
  ⟨_, (step_of_runsAt h).trans (execCall_next h.1.2 i), h.1.1, call_target s i,
    congrArg (s.mem.write · _) s.sp_decSp⟩

/-- A fetch at the very cell that was written reads the stored byte as the opcode, and the old bytes after it. -/
theorem fetchedAfterStore_self (s : State) (a v : Byte) :
    fetchedAfterStore s a v a = [v, s.memRead (a + 1), s.memRead (a + 2)] := by
  simp [fetchedAfterStore]

/-- Settles O40: PUSH and CALL write one cell, and the next fetch reads the memory they leave. -/
theorem storeIsSeenByTheNextFetch : Obligations.StoreIsSeenByTheNextFetch := by
  refine fun s i w => ⟨fun h => ?_, fun h => ?_, fun h => ?_⟩
  · obtain ⟨t, hs, hr, hpc, hm⟩ := step_push h
    have hp : s.pc.toNat ≤ 253 := h.1.2
    exact ⟨t, hs, hr, by rw [hpc]; bv_omega, hpc ▸ fetched_of_mem_eq_write w hm⟩
  · obtain ⟨t, hs, hr, hpc, hm⟩ := step_call h
    exact ⟨t, hs, hr, hpc, fetched_of_mem_eq_write w hm⟩
  · obtain ⟨t, hs, -, hpc, hm⟩ := step_call h
    have second : s.reg 7 - 1 + 1 = s.reg 7 := by bv_omega
    have third : s.reg 7 - 1 + 2 = s.reg 7 + 1 := by bv_omega
    refine ⟨t, hs, ?_⟩
    rw [fetched_of_mem_eq_write w hm, hpc, if_pos rfl, fetchedAfterStore_self, second, third]

end Sys2Proof.Proofs.MemoryAccess
end

section
/-! The decoder and the encoder (spec 30_encoding.md R60 to R71): what decodes, what does not, and the round trip. -/

open Sys2Proof Sys2Proof.Machine

namespace Sys2Proof.Proofs.Codec

/-! ## What the decoder answers -/

@[simp] theorem mnemonic_instr (m : Mnemonic) (a b : Byte) : (m.instr a b).mnemonic = m := by cases m <;> rfl

/-- The operand bytes of an instruction are as many as its format says (R61). -/
theorem length_operands (i : Instr) : i.operands.length = i.mnemonic.format.operandCount := by cases i <;> rfl

/-- An encoding is the opcode and the operand bytes (R60). -/
theorem length_encode (i : Instr) : (encode i).length = i.mnemonic.format.operandCount + 1 :=
  congrArg (· + 1) (length_operands i)

/-- Of the two bytes after the opcode, those the format has become the operand bytes (R61, R70). -/
theorem operands_instr (m : Mnemonic) (a b : Byte) :
    (m.instr a b).operands = [a, b].take m.format.operandCount := by cases m <;> rfl

/-- The bytes that decode to `i` are an opcode that names its mnemonic, then its operand bytes; what follows them is the
rest (R61, R63, R70). -/
theorem decodeWith_eq_ok_iff {c : Config} {bytes rest : List Byte} {i : Instr} :
    decodeWith c bytes = .ok (i, rest) ↔
      ∃ ir, c.mnemonicOf ir = some i.mnemonic ∧ bytes = ir :: (i.operands ++ rest) := by
  constructor
  · intro h
    cases bytes with
    | nil => cases h
    | cons ir tail =>
      cases hm : c.mnemonicOf ir with
      | none => simp [decodeWith, hm] at h
      | some m =>
        simp only [decodeWith, hm] at h
        split at h <;> cases h
        all_goals exact ⟨ir, by simpa using hm, by simp [operands_instr, *, Format.operandCount]⟩
  · rintro ⟨ir, hm, rfl⟩
    simp only [decodeWith, hm]
    cases i <;> rfl

/-- A first byte is rejected as unknown just when no implemented mnemonic has it as its opcode (R68). -/
theorem decodeWith_unknown_iff {c : Config} {b : Byte} {rest : List Byte} :
    decodeWith c (b :: rest) = .error (.unknownOpcode b) ↔ c.mnemonicOf b = none := by
  cases hm : c.mnemonicOf b with
  | none => simp [decodeWith, hm]
  | some m =>
    simp only [decodeWith, hm, reduceCtorEq, iff_false]
    split <;> nofun

/-- Every mnemonic is implemented on this hardware (R71, decision D2). -/
@[simp] theorem core_implements (m : Mnemonic) : coreConfig.implements m = true := by cases m <;> rfl

/-- On this hardware an opcode names a mnemonic just when it is one of the thirteen bytes (R66). -/
theorem core_mnemonicOf_eq_none_iff {b : Byte} : coreConfig.mnemonicOf b = none ↔ b ∉ opcodeBytes := by
  have bytes : opcodeBytes = Mnemonic.all.map opcodeMap := rfl
  simp only [mnemonicOf_eq_none, bytes, core_implements, forall_const, List.mem_map, not_exists, not_and,
    Mnemonic.mem_all]
  rfl

/-! ## The round trip -/

/-- Settles O1: a lawful map finds the mnemonic by its opcode, and the decoder takes the operands its format has. -/
theorem decodeOfEncodeForEveryLawfulMap : Obligations.DecodeOfEncodeForEveryLawfulMap :=
  fun _ lawful _ hi _ => decodeWith_eq_ok_iff.mpr ⟨_, mnemonicOf_opc lawful.injective hi, rfl⟩

/-- On this hardware every instruction is read back from its encoding. -/
theorem decode_encode_append (i : Instr) (rest : List Byte) : decode (encode i ++ rest) = .ok (i, rest) :=
  decodeOfEncodeForEveryLawfulMap coreConfig coreConfig_lawful i (core_implements _) rest

/-- Settles O2: the opcode found is that of an implemented mnemonic. -/
theorem decodedBytesAreAnEncoding : Obligations.DecodedBytesAreAnEncoding := by
  intro c bytes rest i h
  obtain ⟨ir, hm, rfl⟩ := decodeWith_eq_ok_iff.mp h
  obtain ⟨implemented, rfl⟩ := mnemonicOf_eq_some hm
  exact ⟨rfl, implemented⟩

/-- Settles O6: the decoding depends on the opcode and on as many bytes after it as the format has operands. -/
theorem bytesAfterAShortInstructionDoNotMatter : Obligations.BytesAfterAShortInstructionDoNotMatter := by
  intro ir a b i rest h
  obtain ⟨_, hm, hb⟩ := decodeWith_eq_ok_iff.mp h
  obtain ⟨rfl, hops⟩ := List.cons.inj hb
  have hlen := length_operands i
  constructor <;> intro hf <;> simp only [hf, Format.operandCount] at hlen
  · have none : i.operands = [] := List.length_eq_zero_iff.mp hlen
    exact fun a' b' => decodeWith_eq_ok_iff.mpr ⟨ir, hm, by simp [none]⟩
  · obtain ⟨x, one⟩ := List.length_eq_one_iff.mp hlen
    obtain ⟨rfl, -⟩ : a = x ∧ [b] = rest := by simpa [one] using hops
    exact fun b' => decodeWith_eq_ok_iff.mpr ⟨ir, hm, by simp [one]⟩

/-! ## The opcode bytes of this hardware -/

/-- The numbers below 256 that stand for an opcode byte are the numbers of the thirteen, each once. -/
theorem opcode_numbers_perm :
    ((List.range 256).filter fun n => decide (Byte.narrow n ∈ opcodeBytes)).Perm (opcodeBytes.map BitVec.toNat) := by
  refine (List.perm_ext_iff_of_nodup (List.nodup_range.filter _) (by decide)).mpr fun n => ?_
  simp only [List.mem_filter, List.mem_range, decide_eq_true_eq, List.mem_map]
  constructor
  · exact fun ⟨small, h⟩ => ⟨_, h, Nat.mod_eq_of_lt small⟩
  · rintro ⟨b, h, rfl⟩
    exact ⟨b.isLt, by simpa using h⟩

/-- The thirteen distinct opcode bytes leave 243 of 256 (R68). -/
theorem count_unknown_bytes :
    ((List.range 256).filter fun n => decide (Byte.narrow n ∉ opcodeBytes)).length = 243 := by
  have split := (List.range 256).length_eq_length_filter_add fun n => decide (Byte.narrow n ∈ opcodeBytes)
  have thirteen := opcode_numbers_perm.length_eq
  simp only [List.length_range, decide_not] at *
  rw [thirteen] at split
  exact Nat.add_left_cancel split.symm

/-- Settles O3: the bytes that name no mnemonic are those outside the thirteen. -/
theorem everyOtherByteIsUnknown : Obligations.EveryOtherByteIsUnknown :=
  ⟨fun _ _ => decodeWith_unknown_iff.trans core_mnemonicOf_eq_none_iff, count_unknown_bytes, by decide, by decide⟩

/-- Settles O4: each word is the encoding of the instruction beside it. -/
theorem specWordsDecode : Obligations.SpecWordsDecode :=
  ⟨decode_encode_append (.ldi 0 8) [], decode_encode_append (.prn 0) [], decode_encode_append .hlt [],
    decode_encode_append (.mul 0 1) [], decode_encode_append (.add 2 3) [], decode_encode_append (.push 0) [],
    decode_encode_append (.pop 1) [], decode_encode_append (.call 1) [], decode_encode_append .ret [],
    decode_encode_append (.cmp 0 1) [], decode_encode_append (.jmp 4) [], decode_encode_append (.jeq 2) [],
    decode_encode_append (.jne 4) []⟩

/-- Settles O5: the two encodings decode here, and without `JCOND_WIRED` no implemented mnemonic has their opcodes. -/
theorem unwiredJumpsAreUnknown : Obligations.UnwiredJumpsAreUnknown := fun a rest =>
  ⟨decode_encode_append (.jeq a) rest, decode_encode_append (.jne a) rest, decodeWith_unknown_iff.mpr (by decide),
    decodeWith_unknown_iff.mpr (by decide)⟩

end Sys2Proof.Proofs.Codec
end

section
/-! The assembler (spec 30_encoding.md R72, decision D19; the grammar's open points are log entry 13): what a text
assembles to is instructions, and how instructions are spelled assembles to them. -/

open Sys2Proof Sys2Proof.Machine Sys2Proof.Statements

namespace Sys2Proof.Proofs.Assembly

/-! ## From bytes back to instructions -/

/-- An instruction whose operands name registers is well formed, whatever its mnemonic (R65). -/
theorem wellFormed_instr (m : Mnemonic) (i j : Fin 8) :
    (m.instr (regOperand i) (regOperand j)).wellFormed = true := by
  cases m <;> simp [Mnemonic.instr, Instr.wellFormed, legalIndex] <;> omega

/-- The assembler makes well-formed instructions of the mnemonic written, whatever the labels stand for. -/
theorem asmInstr_eq_some {labels : List (List Char × Nat)} {m : Mnemonic} {ops : List AsmOperand} {i : Instr}
    (h : asmInstr labels m ops = some i) : i.mnemonic = m ∧ i.wellFormed = true := by
  unfold asmInstr at h
  split at h
  · obtain ⟨v, -, rfl⟩ := Option.map_eq_some_iff.mp h
    exact ⟨rfl, wellFormed_instr .ldi _ 0⟩
  · cases h
  · cases h
    exact ⟨Codec.mnemonic_instr .., wellFormed_instr _ 0 0⟩
  · cases h
    exact ⟨Codec.mnemonic_instr .., wellFormed_instr _ _ 0⟩
  · cases h
    exact ⟨Codec.mnemonic_instr .., wellFormed_instr ..⟩
  · cases h

/-- Parsed lines that assemble give the encodings of well-formed instructions, one after another. -/
theorem exists_instrs_of_asmBytes {labels : List (List Char × Nat)} {ls : List AsmLine} {bytes : List Byte}
    (h : asmBytes labels ls = some bytes) :
    ∃ is : List Instr, (∀ i ∈ is, i.wellFormed = true) ∧ bytes = is.flatMap encode := by
  induction ls generalizing bytes with
  | nil => exact ⟨[], nofun, (Option.some.inj h).symm⟩
  | cons l ls ih =>
    simp only [asmBytes] at h
    split at h
    · exact ih h
    · split at h
      next i bs hi hbs =>
        cases h
        obtain ⟨is, wf, rfl⟩ := ih hbs
        exact ⟨i :: is, List.forall_mem_cons.mpr ⟨(asmInstr_eq_some hi).2, wf⟩, rfl⟩
      · cases h

/-! ## Words of a line -/

/-- A nonempty run of the characters that the assembler takes for one word (log entry 13). -/
def IsWord (cs : List Char) : Prop := cs ≠ [] ∧ ∀ c ∈ cs, c.isAlphanum = true ∨ c = '_'

/-- The characters of a word are collected. -/
theorem asmTokens_append {cs : List Char} (h : ∀ c ∈ cs, c.isAlphanum = true ∨ c = '_') (word rest : List Char) :
    asmTokens word (cs ++ rest) = asmTokens (word ++ cs) rest := by
  induction cs generalizing word with
  | nil => simp
  | cons c cs ih =>
    obtain ⟨hc, hcs⟩ := List.forall_mem_cons.mp h
    have separators : c ≠ ';' ∧ c ≠ ' ' ∧ c ≠ '\t' ∧ c ≠ ':' ∧ c ≠ ',' := by
      refine ⟨?_, ?_, ?_, ?_, ?_⟩ <;> rintro rfl <;> exact absurd hc (by decide)
    simp [asmTokens, separators, hc, ih hcs]

theorem asmTokens_word {x : List Char} (h : IsWord x) : asmTokens [] x = some [.word x] := by
  simpa [asmTokens, asmWord, h.1] using asmTokens_append h.2 [] []

theorem asmTokens_word_blank {x : List Char} (h : IsWord x) (rest : List Char) :
    asmTokens [] (x ++ ' ' :: rest) = (asmTokens [] rest).map (.word x :: ·) := by
  simp [asmTokens_append h.2, asmTokens, asmWord, h.1]

theorem asmTokens_word_colon {x : List Char} (h : IsWord x) (rest : List Char) :
    asmTokens [] (x ++ ':' :: rest) = (asmTokens [] rest).map (.word x :: .colon :: ·) := by
  simp [asmTokens_append h.2, asmTokens, asmWord, h.1]

theorem asmTokens_word_comma_blank {x : List Char} (h : IsWord x) (rest : List Char) :
    asmTokens [] (x ++ ',' :: ' ' :: rest) = (asmTokens [] rest).map (.word x :: .comma :: ·) := by
  simp [asmTokens_append h.2, asmTokens, asmWord, h.1]

/-! ## Lines -/

/-- A word that is read as the operand `o`. -/
def OperandText (x : List Char) (o : AsmOperand) : Prop := IsWord x ∧ asmOperand x = some o

@[simp] theorem asmMnemonic_mnemonicText (m : Mnemonic) : asmMnemonic (mnemonicText m) = some m := by
  cases m <;> rfl

theorem isWord_mnemonicText (m : Mnemonic) : IsWord (mnemonicText m) := by
  have ne : (mnemonicText m).isEmpty = false := by cases m <;> rfl
  have letters : (mnemonicText m).all Char.isAlphanum = true := by cases m <;> rfl
  exact ⟨List.isEmpty_eq_false_iff.mp ne, fun c hc => .inl (List.all_eq_true.mp letters c hc)⟩

/-- A mnemonic and at most two operands, written as R72 writes them, parse as that statement. -/
theorem asmLine_lineText (m : Mnemonic) {texts : List (List Char)} {ops : List AsmOperand}
    (h : List.Forall₂ OperandText texts ops) (two : texts.length ≤ 2) :
    asmLine (lineText (mnemonicText m) texts) = some ⟨none, some (m, ops)⟩ := by
  have hm := isWord_mnemonicText m
  rcases h with _ | @⟨x, o, _, _, ⟨hx, ho⟩, _ | @⟨y, p, _, _, ⟨hy, hp⟩, _ | _⟩⟩
  · simp [asmLine, lineText, asmTokens_word hm, asmStatement]
  · simp [asmLine, lineText, asmTokens_word_blank hm, asmTokens_word hx, asmStatement, ho]
  · simp [asmLine, lineText, asmTokens_word_blank hm, asmTokens_word_comma_blank hx, asmTokens_word hy, asmStatement,
      ho, hp]
  · simp at two

/-- A line of a label alone (log entry 13). -/
theorem asmLine_label {name : List Char} (h : IsLabel name) : asmLine (name ++ [':']) = some ⟨some name, none⟩ := by
  obtain ⟨hname, hchars⟩ := h
  have word : IsWord name := ⟨fun h => by simp [h, asmLabelName] at hname, hchars⟩
  simp [asmLine, asmTokens_word_colon word, asmTokens, asmWord, hname, asmStatement]

/-! ## Numerals -/

theorem asmDigit_digitChar : ∀ d < 16, asmDigit d.digitChar = d := by decide

theorem isAlphanum_digitChar : ∀ d < 16, d.digitChar.isAlphanum = true := by decide

theorem asmDigits_append (base value : Nat) (cs ds : List Char) :
    asmDigits base value (cs ++ ds) = (asmDigits base value cs).bind (asmDigits base · ds) := by
  induction cs generalizing value with
  | nil => rfl
  | cons c cs ih =>
    simp only [List.cons_append, asmDigits]
    split
    · exact ih _
    · rfl

section
variable {base : Nat} (low : 1 < base) (high : base ≤ 16)
include low high

/-- Every digit is written by the character of a number below the base. -/
theorem mem_toDigits {n : Nat} {c : Char} (h : c ∈ Nat.toDigits base n) : ∃ d < base, c = d.digitChar := by
  induction n using Nat.strong_induction_on with
  | h n ih =>
    by_cases small : n < base
    · rw [Nat.toDigits_of_lt_base small] at h
      exact ⟨n, small, List.mem_singleton.mp h⟩
    · have big : base ≤ n := Nat.le_of_not_lt small
      rw [Nat.toDigits_of_base_le low big, List.mem_append, List.mem_singleton] at h
      obtain h | rfl := h
      · exact ih _ (Nat.div_lt_self (by omega) low) h
      · exact ⟨_, Nat.mod_lt _ (by omega), rfl⟩

/-- Reading a number's digits gives the number, in every base up to 16. -/
theorem asmDigits_toDigits (n : Nat) : asmDigits base 0 (Nat.toDigits base n) = some n := by
  induction n using Nat.strong_induction_on with
  | h n ih =>
    by_cases small : n < base
    · simp [Nat.toDigits_of_lt_base small, asmDigits, asmDigit_digitChar n (by omega), small]
    · have big : base ≤ n := Nat.le_of_not_lt small
      have last : n % base < base := Nat.mod_lt _ (by omega)
      rw [Nat.toDigits_of_base_le low big, asmDigits_append, ih _ (Nat.div_lt_self (by omega) low)]
      simp [asmDigits, asmDigit_digitChar _ (last.trans_le high), last, Nat.div_add_mod']

end

/-- The three spellings of an immediate are words. -/
theorem isWord_numeral {immediate : Byte → List Char} (h : immediate ∈ numerals) (v : Byte) : IsWord (immediate v) := by
  have digits {base : Nat} (low : 1 < base) (high : base ≤ 16) :
      ∀ c ∈ Nat.toDigits base v.toNat, c.isAlphanum = true ∨ c = '_' := fun c hc => by
    obtain ⟨d, hd, rfl⟩ := mem_toDigits low high hc
    exact .inl (isAlphanum_digitChar d (by omega))
  simp only [numerals, List.mem_cons, List.not_mem_nil, or_false] at h
  obtain rfl | rfl | rfl := h
  · exact ⟨Nat.toDigits_ne_nil, digits (by decide) (by decide)⟩
  · exact ⟨nofun, by simpa using digits (base := 16) (by decide) (by decide)⟩
  · exact ⟨nofun, by simpa using digits (base := 2) (by decide) (by decide)⟩

/-- Digits alone are read as a decimal numeral. -/
theorem asmNumeral_of_isDigit {cs : List Char} (ne : cs ≠ []) (h : ∀ c ∈ cs, c.isDigit = true) :
    asmNumeral cs = asmDigits 10 0 cs := by
  unfold asmNumeral
  split
  · exact absurd (h 'x' (by simp)) (by decide)
  · exact absurd (h 'b' (by simp)) (by decide)
  · rfl
  · exact absurd rfl ne

theorem asmNumeral_hexadecimal {cs : List Char} (ne : cs ≠ []) : asmNumeral ('0' :: 'x' :: cs) = asmDigits 16 0 cs := by
  cases cs with
  | nil => exact absurd rfl ne
  | cons c cs => rfl

theorem asmNumeral_binary {cs : List Char} (ne : cs ≠ []) : asmNumeral ('0' :: 'b' :: cs) = asmDigits 2 0 cs := by
  cases cs with
  | nil => exact absurd rfl ne
  | cons c cs => rfl

/-- The three spellings of an immediate are read as its value. -/
theorem asmNumeral_numeral {immediate : Byte → List Char} (h : immediate ∈ numerals) (v : Byte) :
    asmNumeral (immediate v) = some v.toNat := by
  simp only [numerals, List.mem_cons, List.not_mem_nil, or_false] at h
  obtain rfl | rfl | rfl := h
  · rw [asmNumeral_of_isDigit Nat.toDigits_ne_nil fun c => Nat.isDigit_of_mem_toDigits (by decide) (by decide),
      asmDigits_toDigits (by decide) (by decide)]
  · rw [asmNumeral_hexadecimal Nat.toDigits_ne_nil, asmDigits_toDigits (by decide) (by decide)]
  · rw [asmNumeral_binary Nat.toDigits_ne_nil, asmDigits_toDigits (by decide) (by decide)]

/-- A word that starts with a digit is no register (R72: a register starts with `R`). -/
theorem asmRegister_of_asmNumeral {cs : List Char} {n : Nat} (h : asmNumeral cs = some n) : asmRegister cs = none := by
  unfold asmRegister
  split
  · cases h
  · rfl

/-! ## Operands -/

theorem operandText_register (r : Fin 8) : OperandText (registerText (regOperand r)) (.register r) := by
  have low : r.val < 16 := by omega
  have text : registerText (regOperand r) = ['R', r.val.digitChar] := by
    simp [registerText, Nat.toDigits_of_lt_base (show r.val < 10 by omega)]
  rw [text]
  refine ⟨⟨nofun, by simp [isAlphanum_digitChar _ low]⟩, ?_⟩
  simp [asmOperand, asmRegister, asmDigit_digitChar _ low]

theorem operandText_numeral {immediate : Byte → List Char} (h : immediate ∈ numerals) (v : Byte) :
    OperandText (immediate v) (.numeral v.toNat) := by
  have value := asmNumeral_numeral h v
  exact ⟨isWord_numeral h v, by simp [asmOperand, value, asmRegister_of_asmNumeral value]⟩

/-- A word that does not start with a decimal digit is no numeral. -/
theorem asmNumeral_of_not_isDigit {c : Char} (cs : List Char) (h : c.isDigit = false) :
    asmNumeral (c :: cs) = none := by
  have large : ¬ asmDigit c < 10 := by
    have decimal : ¬('0' ≤ c ∧ c ≤ '9') := by
      simpa [Char.isDigit, Char.le_def] using h
    unfold asmDigit
    rw [if_neg decimal]
    split_ifs <;> omega
  unfold asmNumeral
  split
  next heq => simp [(List.cons.inj heq).1] at h
  next heq => simp [(List.cons.inj heq).1] at h
  next d ds _ _ heq =>
    cases heq
    exact if_neg large
  · rfl

theorem operandText_label {name : List Char} (h : IsLabel name) : OperandText name (.label name) := by
  obtain ⟨hname, hchars⟩ := h
  cases name with
  | nil => cases hname
  | cons c cs =>
    obtain ⟨⟨digit, register⟩, -⟩ :
        (c.isDigit = false ∧ asmRegister (c :: cs) = none) ∧ asmMnemonic (c :: cs) = none := by
      simpa [asmLabelName] using hname
    exact ⟨⟨nofun, hchars⟩, by simp [asmOperand, register, asmNumeral_of_not_isDigit cs digit, hname]⟩

/-- A well-formed instruction is spelled with operands that the assembler reads, and makes that instruction of them
whatever the labels. -/
theorem exists_operands {immediate : Byte → List Char} (h : immediate ∈ numerals) {i : Instr}
    (wf : i.wellFormed = true) : ∃ ops, List.Forall₂ OperandText (operandTexts immediate i) ops ∧
      ∀ labels, asmInstr labels i.mnemonic ops = some i := by
  have register {v : Byte} (hv : v.toNat ≤ 7) : ∃ r, v = regOperand r := ⟨_, eq_regOperand (Nat.lt_succ_of_le hv)⟩
  have one (r : Fin 8) : List.Forall₂ OperandText [registerText (regOperand r)] [.register r] :=
    .cons (operandText_register r) .nil
  have two (r q : Fin 8) : List.Forall₂ OperandText [registerText (regOperand r), registerText (regOperand q)]
      [.register r, .register q] := .cons (operandText_register r) (one q)
  cases i with
  | hlt | ret => exact ⟨[], .nil, fun _ => rfl⟩
  | prn a | push a | pop a | call a | jmp a | jeq a | jne a =>
    obtain ⟨r, rfl⟩ := register (of_decide_eq_true wf)
    exact ⟨_, one r, fun _ => rfl⟩
  | mul a b | add a b | cmp a b =>
    obtain ⟨ha, hb⟩ := Bool.and_eq_true_iff.mp wf
    obtain ⟨r, rfl⟩ := register (of_decide_eq_true ha)
    obtain ⟨q, rfl⟩ := register (of_decide_eq_true hb)
    exact ⟨_, two r q, fun _ => rfl⟩
  | ldi a b =>
    obtain ⟨r, rfl⟩ := register (of_decide_eq_true wf)
    refine ⟨_, .cons (operandText_register r) (.cons (operandText_numeral h b) .nil), fun _ => ?_⟩
    simp [asmInstr, Instr.mnemonic, asmImmediate, Nat.le_of_lt_succ b.isLt]

/-! ## Texts -/

/-- The lines of `text`, placed from address `addr` on, define the labels `defs`; and where `labels` are known they
assemble to the instructions `is`. -/
def Assembles (labels : List (List Char × Nat)) (addr : Nat) (text : List (List Char)) (defs : List (List Char × Nat))
    (is : List Instr) : Prop :=
  ∃ ls, asmLines text = some ls ∧ asmLabels addr ls = defs ∧ asmBytes labels ls = some (is.flatMap encode)

/-- A whole text uses the labels it defines. -/
theorem assemble_of_assembles {labels : List (List Char × Nat)} {text : List (List Char)} {is : List Instr}
    (h : Assembles labels 0 text labels is) : assemble text = some (is.flatMap encode) := by
  obtain ⟨ls, parsed, rfl, bytes⟩ := h
  simp [assemble, parsed, bytes]

section
variable {labels defs : List (List Char × Nat)} {addr : Nat} {text : List (List Char)} {is : List Instr}

theorem assembles_nil : Assembles labels addr [] [] [] := ⟨[], rfl, rfl, rfl⟩

/-- A label line defines its name as the address of what follows, and assembles to nothing. -/
theorem assembles_label {name : List Char} (hname : IsLabel name) (h : Assembles labels addr text defs is) :
    Assembles labels addr ((name ++ [':']) :: text) ((name, addr) :: defs) is := by
  obtain ⟨ls, parsed, rfl, bytes⟩ := h
  exact ⟨⟨some name, none⟩ :: ls, by simp [asmLines, asmLine_label hname, parsed], rfl, bytes⟩

/-- A line with an instruction moves the address by its length (R60). -/
theorem assembles_instr {i : Instr} {texts : List (List Char)} {ops : List AsmOperand}
    (hops : List.Forall₂ OperandText texts ops) (two : texts.length ≤ 2)
    (hi : asmInstr labels i.mnemonic ops = some i)
    (h : Assembles labels (addr + (encode i).length) text defs is) :
    Assembles labels addr (lineText (mnemonicText i.mnemonic) texts :: text) defs (i :: is) := by
  obtain ⟨ls, parsed, rfl, bytes⟩ := h
  refine ⟨⟨none, some (i.mnemonic, ops)⟩ :: ls, by simp [asmLines, asmLine_lineText _ hops two, parsed], ?_, ?_⟩
  · simp [asmLabels, AsmLine.length, Codec.length_encode]
  · simp [asmBytes, hi, bytes]

/-- Well-formed instructions, spelled one a line, before any text. -/
theorem assembles_spelling {immediate : Byte → List Char} (hn : immediate ∈ numerals) {js : List Instr}
    (wf : ∀ j ∈ js, j.wellFormed = true)
    (h : Assembles labels (addr + (js.flatMap encode).length) text defs is) :
    Assembles labels addr (js.map (spelling immediate) ++ text) defs (js ++ is) := by
  induction js generalizing addr with
  | nil => exact h
  | cons j js ih =>
    obtain ⟨hj, hjs⟩ := List.forall_mem_cons.mp wf
    obtain ⟨ops, hops, hi⟩ := exists_operands hn hj
    have two : (operandTexts immediate j).length ≤ 2 := by cases j <;> simp [operandTexts]
    exact assembles_instr hops two (hi labels) (ih hjs (by simpa [Nat.add_assoc] using h))

/-- An LDI of a label is an LDI of the address the label stands for (R72). -/
theorem assembles_ldi_label {name : List Char} (hname : IsLabel name) (r : Fin 8) {a : Byte}
    (h : Assembles [(name, a.toNat)] (addr + 3) text defs is) :
    Assembles [(name, a.toNat)] addr (lineText (mnemonicText .ldi) [registerText (regOperand r), name] :: text) defs
      (.ldi (regOperand r) a :: is) := by
  refine assembles_instr (i := .ldi (regOperand r) a)
    (.cons (operandText_register r) (.cons (operandText_label hname) .nil)) le_rfl ?_ h
  simp [asmInstr, Instr.mnemonic, asmImmediate, Nat.le_of_lt_succ a.isLt]

end

/-- Settles O52: one direction reads the instructions off the parsed lines; for the other, a spelled text assembles line
by line, with a label's address that of the bytes before it. -/
theorem assemblyIsWellFormedInstructions : Obligations.AssemblyIsWellFormedInstructions := by
  refine ⟨fun text bytes h => ?_, fun immediate hn => ⟨fun is wf => ?_, fun is is' is'' r name hname wf => ?_⟩⟩
  · unfold assemble at h
    split at h
    · exact exists_instrs_of_asmBytes h
    · cases h
  · simpa using assemble_of_assembles (assembles_spelling hn wf assembles_nil)
  · obtain ⟨wf, wf''⟩ := List.forall_mem_append.mp wf
    obtain ⟨wf, wf'⟩ := List.forall_mem_append.mp wf
    constructor
    · intro a ha
      have fromLabel {addr : Nat} := assembles_label (addr := addr) hname <| assembles_spelling hn wf' <|
        assembles_ldi_label (a := a) hname r <| assembles_spelling hn wf'' assembles_nil
      have whole := assembles_spelling (addr := 0) hn wf fromLabel
      rw [Nat.zero_add, ← ha] at whole
      simpa using assemble_of_assembles whole
    · intro a ha
      have fromLdi {addr : Nat} := assembles_ldi_label (addr := addr) (a := a) hname r <| assembles_spelling hn wf' <|
        assembles_label hname <| assembles_spelling hn wf'' assembles_nil
      have whole := assembles_spelling (addr := 0) hn wf fromLdi
      rw [Nat.zero_add, ← ha] at whole
      simpa using assemble_of_assembles whole

end Sys2Proof.Proofs.Assembly
end

section
/-! The step (spec 40_cycle.md): it always answers a next state, its one event is the first of the list of R169, and a
run ends in the ways of R90. -/

open Sys2Proof Sys2Proof.Machine Sys2Proof.Statements Sys2Proof.Proofs.MachineState Sys2Proof.Proofs.Codec

namespace Sys2Proof.Proofs.Cycle

/-- Settles O9: the fetch is the three cells by definition, the rest is the rule of the step at a fetched instruction. -/
theorem stepRunsTheDecodedInstruction : Obligations.StepRunsTheDecodedInstruction :=
  fun _ _ h => ⟨rfl, step_of_runsAt h⟩

/-! ## Every step answers a next state -/

/-- A check answers a next state when all that can follow it does. -/
theorem checked_answers {α : Type} {s : State} {check : Except Trap α} {k : α → StepOutcome}
    (h : ∀ v, ∃ t, k v = .next t) : ∃ t, s.checked check k = .next t := by
  cases check with
  | ok v => exact h v
  | error tr => exact ⟨s.raise tr, rfl⟩

/-- Every ALU instruction answers a next state, the unsupported operations included. -/
theorem aluStep_answers (op : AluOp) (a b : Byte) (s : State) : ∃ t, aluStep op a b s = .next t :=
  checked_answers fun _ => checked_answers fun _ => checked_answers fun _ => checked_answers fun _ =>
    checked_answers fun _ => ⟨_, rfl⟩

/-- Every jump answers a next state. -/
theorem jumpWhen_answers (taken : Bool) (a : Byte) (s : State) : ∃ t, jumpWhen taken a s = .next t :=
  checked_answers fun _ => checked_answers fun _ => ⟨_, rfl⟩

/-- Every instruction answers a next state: its checks raise next states too (R166). -/
theorem exec_answers (i : Instr) (s : State) : ∃ t, exec i s = .next t := by
  cases i with
  | ldi a b => exact checked_answers fun _ => checked_answers fun _ => checked_answers fun _ => ⟨_, rfl⟩
  | prn a | push a | pop a | call a => exact checked_answers fun _ => checked_answers fun _ => ⟨_, rfl⟩
  | hlt | ret => exact checked_answers fun _ => ⟨_, rfl⟩
  | mul a b | add a b | cmp a b => exact aluStep_answers _ a b s
  | jmp a | jeq a | jne a => exact jumpWhen_answers _ a s

/-- The step of a running core answers a next state. -/
theorem cycle_answers (s : State) : ∃ t, cycle s = .next t := by
  obtain ⟨-, h⟩ | ⟨-, -, h⟩ | ⟨-, i, -, -, h⟩ := cycle_cases s <;> rw [h]
  · exact ⟨_, rfl⟩
  · exact ⟨_, rfl⟩
  · exact exec_answers i s

/-- Settles O11: a running core answers by its checks or its instruction, any other stays as it is. -/
theorem everyStepAnswersANextState : Obligations.EveryStepAnswersANextState := by
  intro s
  by_cases hr : s.rs = .running
  · obtain ⟨t, h⟩ := cycle_answers s
    exact ⟨t, (step_running hr).trans h, absurd hr⟩
  · exact ⟨s, step_not_running hr, fun _ => rfl⟩

/-! ## The faults of an instruction, in the order of the checks -/

section
variable {m : Mnemonic} {a b : Byte} {s : State}

/-- An instruction with operands checks its first one right after the fetch range (R85, R88). -/
theorem exec_checks_first (hm : m.format ≠ .op0) (a b : Byte) (s : State) :
    ∃ k, exec (m.instr a b) s = s.checked (checkFetch s) fun _ => s.checked (checkReg a) k := by
  cases m with
  | hlt | ret => exact absurd rfl hm
  | ldi | prn | mul | add | push | pop | call | cmp | jmp | jeq | jne => exact ⟨_, rfl⟩

/-- An instruction with operands faults on a first operand above 7. -/
theorem exec_indexFault_first (hm : m.format ≠ .op0) (hp : s.pc.toNat ≤ 253) (ha : 7 < a.toNat) :
    exec (m.instr a b) s = indexFault a s := by
  obtain ⟨k, hk⟩ := exec_checks_first hm a b s
  show _ = Host.Outcome.next (s.raise ⟨.regIndex, a⟩)
  simp [hk, hp, show ¬ a.toNat < 8 by omega]

/-- A 3-byte instruction is LDI or an ALU instruction. -/
theorem op2_cases (hm : m.format = .op2) :
    m = .ldi ∨ ∃ op, ∀ a b s, exec (m.instr a b) s = aluStep op a b s := by
  cases m with
  | ldi => exact .inl rfl
  | mul | add | cmp => exact .inr ⟨_, fun _ _ _ => rfl⟩
  | prn | hlt | push | pop | call | ret | jmp | jeq | jne => cases hm

/-- An ALU instruction faults on a second operand above 7 when the first passes. -/
theorem aluStep_indexFault_second (op : AluOp) (hp : s.pc.toNat ≤ 253) (ha : a.toNat ≤ 7) (hb : 7 < b.toNat) :
    aluStep op a b s = indexFault b s := by
  show _ = Host.Outcome.next (s.raise ⟨.regIndex, b⟩)
  simp [aluStep, hp, show a.toNat < 8 by omega, show ¬ b.toNat < 8 by omega]

/-- An ALU instruction at 253 faults on the advance when its operands pass (R87). -/
theorem aluStep_addressFault (op : AluOp) (hp : s.pc.toNat = 253) (ha : a.toNat ≤ 7) (hb : b.toNat ≤ 7) :
    aluStep op a b s = addressFault s := by
  show _ = Host.Outcome.next (s.raise ⟨.address, s.pc⟩)
  simp [aluStep, hp, show a.toNat < 8 by omega, show b.toNat < 8 by omega]

/-- LDI at 253 faults on the advance when its register passes (R87). -/
theorem execLdi_addressFault (hp : s.pc.toNat = 253) (ha : a.toNat ≤ 7) : execLdi a b s = addressFault s := by
  show _ = Host.Outcome.next (s.raise ⟨.address, s.pc⟩)
  simp [execLdi, hp, show a.toNat < 8 by omega]

end

/-! ## The effect of an instruction whose checks pass -/

/-- A legal operand byte is that of a register. -/
theorem exists_regOperand {v : Byte} (h : legalIndex v = true) : ∃ r, v = regOperand r :=
  ⟨_, eq_regOperand (Nat.lt_succ_of_le (of_decide_eq_true h))⟩

/-- A well-formed instruction has its effect when the range checks pass (R81, R85, R87). -/
theorem exec_effect {i : Instr} {s : State} (hw : i.wellFormed = true) (hp : s.pc.toNat ≤ 253)
    (hadv : i.mnemonic.format = .op2 → s.pc.toNat ≤ 252) : ∃ t, exec i s = .next t ∧ Effect i s t := by
  cases i with
  | ldi a b =>
    obtain ⟨r, rfl⟩ := exists_regOperand hw
    exact ⟨_, execLdi_next (hadv rfl) r b, r, rfl, hadv rfl, rfl⟩
  | mul a b | add a b | cmp a b =>
    obtain ⟨ha, hb⟩ := Bool.and_eq_true_iff.mp hw
    obtain ⟨r, rfl⟩ := exists_regOperand ha
    obtain ⟨q, rfl⟩ := exists_regOperand hb
    exact ⟨_, aluStep_next (hadv rfl) r q rfl, r, q, rfl, rfl, hadv rfl, rfl⟩
  | prn a =>
    obtain ⟨r, rfl⟩ := exists_regOperand hw
    exact ⟨_, execPrn_next hp r, r, rfl, rfl⟩
  | push a =>
    obtain ⟨r, rfl⟩ := exists_regOperand hw
    exact ⟨_, execPush_next hp r, r, rfl, rfl⟩
  | pop a =>
    obtain ⟨r, rfl⟩ := exists_regOperand hw
    exact ⟨_, execPop_next hp r, r, rfl, rfl⟩
  | call a =>
    obtain ⟨r, rfl⟩ := exists_regOperand hw
    exact ⟨_, execCall_next hp r, r, rfl, rfl⟩
  | jmp a | jeq a =>
    obtain ⟨r, rfl⟩ := exists_regOperand hw
    exact ⟨_, jumpWhen_next hp _ r, r, rfl, rfl⟩
  | jne a =>
    obtain ⟨r, rfl⟩ := exists_regOperand hw
    exact ⟨_, jumpWhen_next hp _ r, r, rfl, by cases s.flagE <;> rfl⟩
  | hlt => exact ⟨_, execHlt_next hp, rfl⟩
  | ret => exact ⟨_, execRet_next hp, rfl⟩

/-- An effect records no fault, and only that of HLT leaves the run status (R102, R162). -/
theorem effect_status {m : Mnemonic} {a b : Byte} {s t : State} (h : Effect (m.instr a b) s t) :
    t.rs = (if m = .hlt then .halted else s.rs) ∧ t.cause = s.cause := by
  by_cases hm : m = .hlt
  · subst hm
    obtain rfl : t = s.halt := h
    exact ⟨rfl, rfl⟩
  · rw [if_neg hm]
    obtain ⟨hi, -⟩ | ⟨hrs, -, hc, -⟩ := (effect_frame h).status
    · exact absurd ((mnemonic_instr m a b).symm.trans (congrArg Instr.mnemonic hi)) hm
    · exact ⟨hrs, hc⟩

/-- Which operand bytes make the instruction of a mnemonic well-formed (R84). -/
theorem wellFormed_instr_of_le {m : Mnemonic} {a b : Byte} (ha : m.format ≠ .op0 → a.toNat ≤ 7)
    (hb : m.format = .op2 → m = .ldi ∨ b.toNat ≤ 7) : (m.instr a b).wellFormed = true := by
  cases m <;> simp_all [Mnemonic.format, Mnemonic.instr, Instr.wellFormed, legalIndex]

/-! ## The step by the bytes in memory -/

/-- The opcodes are distinct (R67). -/
theorem opcodeMap_inj {m m' : Mnemonic} : opcodeMap m = opcodeMap m' ↔ m = m' :=
  ⟨coreConfig_lawful.injective m m', congrArg opcodeMap⟩

/-- HLT has no operands (R61). -/
theorem ne_hlt_of_operands {m : Mnemonic} (h : m.format ≠ .op0) : m ≠ .hlt := by
  rintro rfl
  exact h rfl

/-- A byte among the opcodes of the mnemonics with `p` is the opcode of one of them. -/
theorem exists_mnemonic {p : Mnemonic → Prop} [DecidablePred p] {ir : Byte}
    (h : ir ∈ (Mnemonic.all.filter (p ·)).map opcodeMap) : ∃ m, p m ∧ opcodeMap m = ir := by
  obtain ⟨m, hm, hir⟩ := List.mem_map.mp h
  exact ⟨m, of_decide_eq_true (List.mem_filter.mp hm).2, hir⟩

/-- Three bytes that begin with the opcode of `m` decode to the instruction of `m` (R63, R70). -/
theorem decode_opcode (m : Mnemonic) (a b : Byte) : ∃ rest, decode [opcodeMap m, a, b] = .ok (m.instr a b, rest) := by
  refine ⟨[a, b].drop m.format.operandCount, decodeWith_eq_ok_iff.mpr ⟨opcodeMap m, ?_, ?_⟩⟩
  · rw [mnemonic_instr]
    exact mnemonicOf_opc coreConfig_lawful.injective (core_implements m)
  · rw [operands_instr, List.take_append_drop]

section
variable {m : Mnemonic} {a b : Byte} {s : State}

/-- A core that fetches the opcode of `m` runs the instruction of `m` (R86). -/
theorem step_of_opcode (hs : Fetches s) (hf : s.fetched = [opcodeMap m, a, b]) : step s = exec (m.instr a b) s := by
  obtain ⟨rest, hd⟩ := decode_opcode m a b
  exact step_of_runsAt ⟨hs, rest, hf ▸ hd⟩

/-- A core that fetches an opcode whose checks pass has its effect and records no fault. -/
theorem step_answers_effect (hs : Fetches s) (hf : s.fetched = [opcodeMap m, a, b])
    (ha : m.format ≠ .op0 → a.toNat ≤ 7)
    (hb : m.format = .op2 → s.pc.toNat ≤ 252 ∧ (m = .ldi ∨ b.toNat ≤ 7)) :
    ∃ i rest t, decode [opcodeMap m, a, b] = .ok (i, rest) ∧ step s = exec i s ∧ exec i s = .next t ∧
      t.rs = (if m = .hlt then .halted else .running) ∧ t.cause = s.cause := by
  obtain ⟨rest, hd⟩ := decode_opcode m a b
  obtain ⟨t, ht, he⟩ := exec_effect (wellFormed_instr_of_le ha fun h => (hb h).2) hs.2
    fun h => (hb (mnemonic_instr m a b ▸ h)).1
  obtain ⟨hrs, hc⟩ := effect_status he
  exact ⟨_, rest, t, hd, step_of_opcode hs hf, ht, hs.1 ▸ hrs, hc⟩

/-- A core that fetches no opcode stops (R83, R163). -/
theorem step_unknown (hs : Fetches s) (h : s.memRead s.pc ∉ opcodeBytes) :
    step s = .next (s.stopUnknownOpcode (s.memRead s.pc)) := by
  have hd : decode s.fetched = .error (.unknownOpcode (s.memRead s.pc)) :=
    decodeWith_unknown_iff.mpr (core_mnemonicOf_eq_none_iff.mpr h)
  simp [step_running hs.1, cycle, hs.2, hd]

end

/-- Settles O12: the opcode byte gives the mnemonic, and each clause is one of the checks, or all of them passed. -/
theorem eventsInPriorityOrder : Obligations.EventsInPriorityOrder := by
  intro s ir a b hr hir ha hb
  have hf : s.fetched = [ir, a, b] := by rw [State.fetched, ← hir, ← ha, ← hb]
  refine ⟨step_at_top hr, fun hp hm => hir ▸ step_unknown ⟨hr, hp⟩ (hir ▸ hm), fun hp hm ha => ?_,
    fun hp hm ha hb => ?_, fun hp hm ha hb => ?_, fun hp hm => ?_, fun hp hm ha => ?_, fun hp hm ha hb => ?_⟩
  · obtain ⟨m, hfmt, rfl⟩ := exists_mnemonic (p := (·.format ≠ .op0)) hm
    exact (step_of_opcode ⟨hr, hp⟩ hf).trans (exec_indexFault_first hfmt hp ha)
  · obtain ⟨m, ⟨hfmt, hldi⟩, rfl⟩ := exists_mnemonic (p := fun m => m.format = .op2 ∧ m ≠ .ldi) hm
    obtain ⟨op, hop⟩ := (op2_cases hfmt).resolve_left hldi
    rw [step_of_opcode ⟨hr, hp⟩ hf, hop, aluStep_indexFault_second op hp ha hb]
  · obtain ⟨m, hfmt, rfl⟩ := exists_mnemonic (p := (·.format = .op2)) hm
    rw [step_of_opcode ⟨hr, hp.le⟩ hf]
    by_cases hldi : m = .ldi
    · subst hldi
      exact execLdi_addressFault hp ha
    · obtain ⟨op, hop⟩ := (op2_cases hfmt).resolve_left hldi
      rw [hop, aluStep_addressFault op hp ha (hb.resolve_left (mt (opcodeMap_inj (m' := .ldi)).mp hldi))]
  · obtain ⟨m, hfmt, rfl⟩ := exists_mnemonic (p := (·.format = .op0)) hm
    obtain ⟨i, rest, t, hd, hstep, ht, hrs, hc⟩ := step_answers_effect ⟨hr, hp⟩ hf (absurd hfmt) (by simp [hfmt])
    have halts : opcodeMap m = 0x01 ↔ m = .hlt := opcodeMap_inj (m' := .hlt)
    exact ⟨i, rest, t, hd, hstep, ht, by simpa only [halts] using hrs, hc⟩
  · obtain ⟨m, hfmt, rfl⟩ := exists_mnemonic (p := (·.format = .op1)) hm
    have hhlt : m ≠ .hlt := ne_hlt_of_operands (by simp [hfmt])
    simpa [hhlt] using step_answers_effect ⟨hr, hp⟩ hf (fun _ => ha) (by simp [hfmt])
  · obtain ⟨m, hfmt, rfl⟩ := exists_mnemonic (p := (·.format = .op2)) hm
    have hb : m = .ldi ∨ b.toNat ≤ 7 := hb.imp_left opcodeMap_inj.mp
    have hhlt : m ≠ .hlt := ne_hlt_of_operands (by simp [hfmt])
    simpa [hhlt] using step_answers_effect ⟨hr, by omega⟩ hf (fun _ => ha) fun _ => ⟨hp, hb⟩

/-! ## How a run ends, and a run that does not -/

/-- Settles O13: an effect other than that of HLT keeps RS, so the run ended by HLT, the stop or a fault. -/
theorem runEndsInThreeWays : Obligations.RunEndsInThreeWays := by
  intro s t hr h hne
  obtain ⟨hnr, -⟩ | ⟨-, hp, ht⟩ | ⟨-, hp, hm, ht⟩ | ⟨-, hp, i, rest, hd, he⟩ := step_cases h
  · exact absurd hr hnr
  · exact .inr (.inr (.inl ⟨by omega, ht⟩))
  · exact .inr (.inl ⟨⟨hr, hp⟩, not_mem_opcodeBytes hm, ht⟩)
  · obtain ⟨⟨c, v⟩, ht, ⟨rfl, rfl, hp'⟩ | ⟨rfl, hv, hops, -⟩⟩ | ⟨-, heff⟩ := exec_cases he
    · exact .inr (.inr (.inl ⟨hp', ht⟩))
    · exact .inr (.inr (.inr ⟨⟨hr, hp⟩, v, hv, (fetched_operands hd).2 v hops, ht⟩))
    · obtain ⟨rfl, ht⟩ | ⟨hrs, -⟩ := (effect_frame heff).status
      · exact .inl ⟨⟨⟨hr, hp⟩, rest, hd⟩, ht⟩
      · exact absurd (hrs.trans hr) hne

/-- A step that answers the same state is repeated for ever. -/
theorem run_of_step_self {s : State} (h : step s = .next s) (k : Nat) : Sys2Proof.core.run k s = .next s := by
  induction k with
  | zero => rfl
  | succ k ih => rw [run_succ h, ih]

/-- Settles O39: a jump to its own address sets PC to what it was. -/
theorem selfJumpRunsForEver : Obligations.SelfJumpRunsForEver := by
  intro s i h hi
  have self : step s = .next (s.setPc (s.reg i)) := (step_of_runsAt h).trans (jumpWhen_next h.1.2 true i)
  exact run_of_step_self (by rw [self, hi]; rfl)

end Sys2Proof.Proofs.Cycle
end

section
/-! LDI, PRN and HLT (spec 41_load_print_halt.md): what each does and leaves unchanged, its encoding, and its faults in
the order of the checks. -/

open Sys2Proof Sys2Proof.Machine Sys2Proof.Statements Sys2Proof.Proofs.Codec Sys2Proof.Proofs.Cycle

namespace Sys2Proof.Proofs.LoadPrintHalt

/-! ## The first faults of an instruction, the advance, and the write of one register -/

/-- Every instruction begins with the fetch range check (R81, R88). -/
theorem exec_checks_fetch (i : Instr) (s : State) : ∃ k, exec i s = s.checked (checkFetch s) k := by
  cases i <;> exact ⟨_, rfl⟩

/-- Every instruction faults at 254 and 255 (R81). -/
theorem exec_at_top (i : Instr) {s : State} (hp : 254 ≤ s.pc.toNat) : exec i s = addressFault s := by
  obtain ⟨k, hk⟩ := exec_checks_fetch i s
  rw [hk, State.checked_checkFetch, if_neg (by omega)]
  rfl

/-- Every 2-byte instruction has the two faults of one register operand (R81, R85). -/
theorem trapsOnOneRegister {m : Mnemonic} (hm : m.format = .op1) : TrapsOnOneRegister (m.instr · 0) :=
  fun _ _ _ => ⟨exec_at_top _, exec_indexFault_first (by simp [hm])⟩

/-- The advance wraps nowhere when the next PC fits (R86, R87). -/
theorem toNat_pc_advance {s : State} {len : Byte} (h : s.pc.toNat + len.toNat ≤ 255) :
    (s.advance len).pc.toNat = s.pc.toNat + len.toNat :=
  BitVec.toNat_add_of_lt (Nat.lt_succ_of_le h)

/-- The write of a register keeps the others. -/
theorem regsKeptBut_setReg (s : State) (i : Fin 8) (v : Byte) : RegsKeptBut [i] s (s.setReg i v) := fun j hj => by
  have hij : i ≠ j := fun h => hj (List.mem_singleton.mpr h.symm)
  rw [State.reg_setReg, if_neg hij]

/-! ## The three instructions -/

/-- Settles O16: up to 252 LDI is one register write and the advance, and PRN then emits the register it wrote. -/
theorem ldiLoadsItsImmediate : Obligations.LdiLoadsItsImmediate := by
  refine ⟨fun _ _ => rfl, fun i b s _ hp => ?_, fun a b s _ => ?_, fun i b s _ hp => ?_⟩
  · exact ⟨_, execLdi_next hp i b, by simp, toNat_pc_advance (Nat.add_le_add_right hp 3), regsKeptBut_setReg s i b,
      fun _ => rfl, rfl, rfl, rfl, rfl, rfl, rfl⟩
  · exact ⟨exec_at_top _, exec_indexFault_first (m := .ldi) (by decide), execLdi_addressFault⟩
  · have next : (s.advance 3).pc.toNat = s.pc.toNat + 3 :=
      toNat_pc_advance ((Nat.add_le_add_right hp 3).trans (by decide))
    have fits : ((s.setReg i b).advance 3).pc.toNat ≤ 253 := next.trans_le (by omega)
    exact ⟨_, _, execLdi_next (by omega) i b, execPrn_next fits i, by simp⟩

/-- Settles O17: up to 253 PRN is the emission of its register and the advance. -/
theorem prnEmitsTheRegister : Obligations.PrnEmitsTheRegister := by
  refine ⟨fun _ => rfl, fun i s hs => ?_, trapsOnOneRegister (m := .prn) rfl⟩
  exact ⟨_, execPrn_next hs.2 i, rfl, toNat_pc_advance (Nat.add_le_add_right hs.2 2), fun _ _ => rfl,
    fun _ => rfl, rfl, rfl, rfl, rfl, rfl⟩

/-- Settles O18: up to 253 HLT sets RS and nothing else, and a core that is not running takes no step. -/
theorem hltHaltsAndKeepsAllElse : Obligations.HltHaltsAndKeepsAllElse := by
  refine ⟨rfl, fun s hs => ?_, fun x y => decode_encode_append .hlt [x, y], fun _ _ => exec_at_top .hlt⟩
  have stays : step s.halt = .next s.halt := step_not_running (by simp)
  exact ⟨s.halt, execHlt_next hs.2, rfl, rfl, fun _ _ => rfl, fun _ => rfl, rfl, rfl, rfl, rfl, rfl,
    fun u hu => (Host.Outcome.next.inj (stays.symm.trans hu)).symm⟩

end Sys2Proof.Proofs.LoadPrintHalt
end

section
/-! The ALU and its instructions MUL, ADD and CMP (spec 42_alu.md): the arithmetic, what the ALU writes back, that its
unsupported operations are never reached, and each instruction's encoding, effect and faults. -/

open Sys2Proof Sys2Proof.Machine Sys2Proof.Statements Sys2Proof.Proofs.MachineState Sys2Proof.Proofs.Cycle
open Sys2Proof.Proofs.LoadPrintHalt

namespace Sys2Proof.Proofs.Alu

/-! ## The fault cause of an unsupported operation -/

/-- A step keeps CAUSE or records one of the two faults that a check raises (R161). -/
theorem step_cause_cases {s t : State} (h : step s = .next t) :
    t.cause = s.cause ∨ t.cause = .address ∨ t.cause = .regIndex := by
  obtain rfl | ⟨-, _, tr, rfl, ⟨hc, -⟩ | ⟨hc, -⟩⟩ | ⟨-, -, rfl⟩ | ⟨i, -, he⟩ := step_outcomes h
  · exact .inl rfl
  · exact .inr (.inl hc)
  · exact .inr (.inr hc)
  · exact .inl rfl
  · obtain ⟨-, rfl⟩ | ⟨-, -, hc, -⟩ := (effect_frame he).status
    · exact .inl rfl
    · exact .inl hc

/-- Settles O31: the causes that a step can record are those of the checks. -/
theorem unsupportedAluOperationIsNeverReached : Obligations.UnsupportedAluOperationIsNeverReached := by
  refine ⟨fun _ _ _ => rfl, fun s t h ht => ?_⟩
  obtain hc | hc | hc := step_cause_cases h
  · exact hc.symm.trans ht
  · cases hc.symm.trans ht
  · cases hc.symm.trans ht

/-! ## The arithmetic -/

section
variable (va vb : Byte)

/-- The sum that the ALU narrows is the sum of bit vectors. -/
theorem narrow_toNat_add : Byte.narrow (va.toNat + vb.toNat) = va + vb :=
  BitVec.eq_of_toNat_eq (by simp)

/-- The product that the ALU narrows is the product of bit vectors. -/
theorem narrow_toNat_mul : Byte.narrow (va.toNat * vb.toNat) = va * vb :=
  BitVec.eq_of_toNat_eq (by simp)

/-- The flags byte says exactly how the unsigned values compare (R116). -/
theorem compareFlags_iff :
    (compareFlags va vb = 1 ↔ va.toNat = vb.toNat) ∧ (compareFlags va vb = 4 ↔ va.toNat < vb.toNat) ∧
      (compareFlags va vb = 2 ↔ vb.toNat < va.toNat) := by
  unfold compareFlags
  split_ifs with heq hlt
  · simp [flagEqual, heq]
  · simp [flagLess, heq, hlt, hlt.le]
  · simp [flagGreater, heq, hlt, show vb.toNat < va.toNat by omega]

end

/-- Settles O30: the sum and the product are those of bit vectors, whose signed reading is also exact modulo 256. -/
theorem arithmeticIsModulo256 : Obligations.ArithmeticIsModulo256 := by
  refine fun va vb => ⟨⟨_, rfl, BitVec.toNat_ofNat .., ?_⟩, ⟨_, rfl, BitVec.toNat_ofNat .., ?_⟩,
    ⟨_, rfl, compareFlags_iff va vb⟩⟩
  · rw [narrow_toNat_add]
    exact BitVec.toInt_add va vb
  · rw [narrow_toNat_mul]
    exact BitVec.toInt_mul va vb

/-! ## The write back -/

section
variable {s : State}

/-- An ALU instruction whose checks pass and whose operation the ALU refuses raises what the ALU answers (R113). -/
theorem aluStep_raise {op : AluOp} {tr : Trap} (h : s.pc.toNat ≤ 252) (i j : Fin 8)
    (hr : alu op (s.reg i) (s.reg j) = .error tr) :
    aluStep op (regOperand i) (regOperand j) s = .next (s.raise tr) := by
  simp [aluStep, show s.pc.toNat ≤ 253 by omega, show s.pc.toNat + 3 ≤ 255 by omega, hr]

/-- The write back of any answer keeps memory, OUT and the status registers, and the advance is exact (R110). -/
theorem writeAlu_frame (h : s.pc.toNat ≤ 252) (i : Fin 8) (r : AluResult) :
    MemKept s ((s.writeAlu i r).advance 3) ∧ ((s.writeAlu i r).advance 3).out = s.out ∧
      StatusKept s ((s.writeAlu i r).advance 3) ∧ ((s.writeAlu i r).advance 3).pc.toNat = s.pc.toNat + 3 := by
  have hpc : (s.advance 3).pc.toNat = s.pc.toNat + 3 := toNat_pc_advance (Nat.add_le_add_right h 3)
  cases r with
  | result v | flags v => exact ⟨fun _ => rfl, rfl, ⟨rfl, rfl, rfl, rfl⟩, hpc⟩

end

/-- Settles O29: each supported operation has its answer written back, and the trap of any other is raised. -/
theorem aluWritesARegisterOrTheFlags : Obligations.AluWritesARegisterOrTheFlags := by
  intro op i j s _ hp
  cases op with
  | add =>
    exact ⟨_, aluStep_next hp i j rfl, fun _ => ⟨by simp [State.writeAlu], rfl, regsKeptBut_setReg s i _⟩, nofun, nofun,
      fun _ => writeAlu_frame hp i _, nofun⟩
  | mul =>
    exact ⟨_, aluStep_next hp i j rfl, nofun, fun _ => ⟨by simp [State.writeAlu], rfl, regsKeptBut_setReg s i _⟩, nofun,
      fun _ => writeAlu_frame hp i _, nofun⟩
  | cmp =>
    obtain ⟨heq, hlt, hgt⟩ := compareFlags_iff (s.reg i) (s.reg j)
    exact ⟨_, aluStep_next hp i j rfl, nofun, nofun, fun _ => ⟨fun _ _ => rfl, heq.mpr, hlt.mpr, hgt.mpr⟩,
      fun _ => writeAlu_frame hp i _, nofun⟩
  | other ir => exact ⟨_, aluStep_raise hp i j rfl, nofun, nofun, nofun, by simp, fun _ h => by cases h; rfl⟩

/-! ## The three instructions -/

/-- Every ALU instruction has the four faults of two register operands, in order (R88). -/
theorem trapsOnTwoRegisters {m : Mnemonic} (hm : m.format = .op2) (hldi : m ≠ .ldi) : TrapsOnTwoRegisters m.instr := by
  obtain ⟨op, hop⟩ := (op2_cases hm).resolve_left hldi
  refine fun a b s _ => ⟨exec_at_top _, exec_indexFault_first (by simp [hm]), ?_, ?_⟩ <;> rw [hop]
  · exact aluStep_indexFault_second op
  · exact aluStep_addressFault op

/-- Settles O19: MUL is the ALU instruction of its operation. -/
theorem mulMultipliesModulo256 : Obligations.MulMultipliesModulo256 := by
  refine ⟨fun _ _ => rfl, fun i j s hr hp => ?_, trapsOnTwoRegisters (m := .mul) rfl nofun⟩
  obtain ⟨t, ht, -, hmul, -, hall, -⟩ := aluWritesARegisterOrTheFlags .mul i j s hr hp
  obtain ⟨hv, hfl, hregs⟩ := hmul rfl
  obtain ⟨hmem, hout, hstatus, hpc⟩ := hall (.inr (.inl rfl))
  exact ⟨t, ht, hv, hpc, hregs, hmem, hfl, hout, hstatus⟩

/-- Settles O20: ADD is the ALU instruction of its operation. -/
theorem addAddsModulo256 : Obligations.AddAddsModulo256 := by
  refine ⟨fun _ _ => rfl, fun i j s hr hp => ?_, trapsOnTwoRegisters (m := .add) rfl nofun⟩
  obtain ⟨t, ht, hadd, -, -, hall, -⟩ := aluWritesARegisterOrTheFlags .add i j s hr hp
  obtain ⟨hv, hfl, hregs⟩ := hadd rfl
  obtain ⟨hmem, hout, hstatus, hpc⟩ := hall (.inl rfl)
  exact ⟨t, ht, hv, hpc, hregs, hmem, hfl, hout, hstatus⟩

/-- Settles O21: CMP is the ALU instruction of its operation; that no other step changes FL is R20. -/
theorem cmpSetsExactlyOneFlag : Obligations.CmpSetsExactlyOneFlag := by
  refine ⟨fun _ _ => rfl, fun i j s hr hp => ?_, flagsAreWrittenByCmpAndReadByJumps.1,
    trapsOnTwoRegisters (m := .cmp) rfl nofun⟩
  obtain ⟨t, ht, -, -, hcmp, hall, -⟩ := aluWritesARegisterOrTheFlags .cmp i j s hr hp
  obtain ⟨hregs, heq, hlt, hgt⟩ := hcmp rfl
  obtain ⟨hmem, hout, hstatus, hpc⟩ := hall (.inr (.inr rfl))
  exact ⟨t, ht, heq, hlt, hgt, hpc, hregs, hmem, hout, hstatus⟩

end Sys2Proof.Proofs.Alu
end

section
/-! PUSH and POP (spec 43_stack.md): what each does and leaves unchanged, its encoding and its faults, and that a POP
undoes a PUSH, once or nested to any depth. -/

open Sys2Proof Sys2Proof.Machine Sys2Proof.Statements Sys2Proof.Proofs.MachineState Sys2Proof.Proofs.MemoryAccess
open Sys2Proof.Proofs.Cycle Sys2Proof.Proofs.LoadPrintHalt

namespace Sys2Proof.Proofs.Stack

/-! ## What stack instructions leave unchanged -/

/-- `PC` goes on by `n` bytes without wrapping, and FL, OUT and the status registers are kept. -/
structure GoesOn (n : Nat) (s t : State) : Prop where
  pc : t.pc.toNat = s.pc.toNat + n
  fl : t.fl = s.fl
  out : t.out = s.out
  status : StatusKept s t

theorem statusKept_trans {s t u : State} (h : StatusKept s t) (h' : StatusKept t u) : StatusKept s u := by
  obtain ⟨hrs, hbadop, hcause, hinfo⟩ := h
  obtain ⟨hrs', hbadop', hcause', hinfo'⟩ := h'
  exact ⟨hrs'.trans hrs, hbadop'.trans hbadop, hcause'.trans hcause, hinfo'.trans hinfo⟩

theorem GoesOn.refl (s : State) : GoesOn 0 s s := ⟨rfl, rfl, rfl, rfl, rfl, rfl, rfl⟩

theorem GoesOn.trans {n k : Nat} {s t u : State} (h : GoesOn n s t) (h' : GoesOn k t u) : GoesOn (n + k) s u where
  pc := by rw [h'.pc, h.pc, Nat.add_assoc]
  fl := h'.fl.trans h.fl
  out := h'.out.trans h.out
  status := statusKept_trans h.status h'.status

theorem GoesOn.running {n : Nat} {s t : State} (h : GoesOn n s t) (hr : s.rs = .running) : t.rs = .running :=
  h.status.1.trans hr

theorem GoesOn.fetches {n : Nat} {s t : State} (h : GoesOn n s t) (hr : s.rs = .running)
    (hp : s.pc.toNat + n ≤ 253) : Fetches t :=
  ⟨h.running hr, h.pc.trans_le hp⟩

/-! ## The two instructions -/

/-- The effect of PUSH of register `i` (R130, R132; with `i = 7` decision D20). -/
structure Pushed (i : Fin 8) (s t : State) : Prop extends GoesOn 2 s t where
  sp : t.reg 7 = s.reg 7 - 1
  mem : t.mem = s.mem.write (s.reg 7 - 1) (if i = 7 then s.reg 7 - 1 else s.reg i)
  regs : RegsKeptBut [7] s t

/-- The effect of POP of register `i` (R131, R132; with `i = 7` decision D20). -/
structure Popped (i : Fin 8) (s t : State) : Prop extends GoesOn 2 s t where
  reg : i ≠ 7 → t.reg i = s.memRead (s.reg 7)
  sp : t.reg 7 = (if i = 7 then s.memRead (s.reg 7) else s.reg 7) + 1
  mem : MemKept s t
  regs : RegsKeptBut [i, 7] s t

/-- PUSH with its checks passed. -/
theorem exec_push {s : State} (hs : Fetches s) (i : Fin 8) :
    ∃ t, exec (.push (regOperand i)) s = .next t ∧ Pushed i s t :=
  ⟨_, execPush_next hs.2 i,
    { pc := toNat_pc_advance (Nat.add_le_add_right hs.2 2)
      fl := rfl
      out := rfl
      status := ⟨rfl, rfl, rfl, rfl⟩
      sp := s.sp_decSp
      mem := congrArg₂ s.mem.write s.sp_decSp (call_target s i)
      regs := regsKeptBut_setReg s 7 _ }⟩

/-- POP with its checks passed. -/
theorem exec_pop {s : State} (hs : Fetches s) (i : Fin 8) :
    ∃ t, exec (.pop (regOperand i)) s = .next t ∧ Popped i s t :=
  ⟨_, execPop_next hs.2 i,
    { pc := toNat_pc_advance (Nat.add_le_add_right hs.2 2)
      fl := rfl
      out := rfl
      status := ⟨rfl, rfl, rfl, rfl⟩
      reg := fun hi => by simp [Ne.symm hi, State.sp_eq_reg]
      sp := by simp [State.sp_eq_reg]
      mem := fun _ => rfl
      regs := fun j hj => by
        obtain ⟨hji, hj7⟩ : j ≠ i ∧ j ≠ 7 := by simpa using hj
        simp [Ne.symm hji, Ne.symm hj7] }⟩

section
variable {s t : State} {i : Fin 8}

/-- After a PUSH the new stack pointer's cell reads as the value pushed and every other cell as before. -/
theorem Pushed.memRead (h : Pushed i s t) (w : s.mem.wf = true) (c : Byte) : t.memRead c =
    if c = s.reg 7 - 1 then (if i = 7 then s.reg 7 - 1 else s.reg i) else s.memRead c :=
  memRead_of_mem_eq_write w h.mem c

theorem Pushed.memKeptBut (h : Pushed i s t) (w : s.mem.wf = true) : MemKeptBut (s.reg 7 - 1) s t :=
  fun c hc => (h.memRead w c).trans (if_neg hc)

/-- A PUSH keeps the canonical form of memory. -/
theorem Pushed.wf (h : Pushed i s t) (w : s.mem.wf = true) : t.mem.wf = true :=
  h.mem ▸ Memory.wf_write w _ _

end

/-- Settles O22: up to 253 PUSH is one register write and one memory write, and the decrement is modulo 256. -/
theorem pushStoresBelowTheStackPointer : Obligations.PushStoresBelowTheStackPointer := by
  refine ⟨fun _ => rfl, fun i s hs w => ?_, trapsOnOneRegister (m := .push) rfl⟩
  obtain ⟨t, ht, h⟩ := exec_push hs i
  have wraps : (s.reg 7 - 1).toNat = ((s.reg 7).toNat + 255) % 256 := by bv_omega
  exact ⟨t, ht, h.sp, h.sp ▸ wraps, (h.memRead w _).trans (if_pos rfl), h.memKeptBut w, h.pc, h.regs, h.fl, h.out,
    h.status⟩

/-- Settles O23: up to 253 POP is the load, then the increment of register 7 as the load left it. -/
theorem popLoadsFromTheStackPointer : Obligations.PopLoadsFromTheStackPointer := by
  refine ⟨fun _ => rfl, fun i s hs => ?_, trapsOnOneRegister (m := .pop) rfl⟩
  obtain ⟨t, ht, h⟩ := exec_pop hs i
  exact ⟨t, ht, fun hi => ⟨h.reg hi, by simpa [hi] using h.sp⟩, fun hi => by simpa [hi] using h.sp, h.pc, h.regs,
    h.mem, h.fl, h.out, h.status⟩

/-! ## A POP undoes a PUSH -/

/-- A POP that finds the registers and the pushed cell as a PUSH left them takes the pushed value and restores SP (R133),
whatever ran in between. -/
theorem Pushed.undone {i j : Fin 8} {s t t' u : State} (h : Pushed i s t) (w : s.mem.wf = true) (hi : i ≠ 7)
    (hj : j ≠ 7) (hregs : RegsKeptBut [] t t') (hcell : t'.memRead (s.reg 7 - 1) = t.memRead (s.reg 7 - 1))
    (h' : Popped j t' u) : u.reg j = s.reg i ∧ u.reg 7 = s.reg 7 ∧ RegsKeptBut [j] s u := by
  have kept (k : Fin 8) : t'.reg k = t.reg k := hregs k List.not_mem_nil
  have top : t'.reg 7 = s.reg 7 - 1 := (kept 7).trans h.sp
  have sp : u.reg 7 = s.reg 7 := by rw [h'.sp, if_neg hj, top, BitVec.sub_add_cancel]
  refine ⟨?_, sp, fun k hk => ?_⟩
  · rw [h'.reg hj, top, hcell, h.memRead w, if_pos rfl, if_neg hi]
  · by_cases hk7 : k = 7
    · exact hk7 ▸ sp
    · have hkj : k ≠ j := fun e => hk (List.mem_singleton.mpr e)
      exact (h'.regs k (by simp [hkj, hk7])).trans ((kept k).trans (h.regs k (by simpa using hk7)))

/-- Settles O41: the PUSH stores onto neither byte of the POP, so the next step runs the POP, which undoes it. -/
theorem pushThenPopRestores : Obligations.PushThenPopRestores := by
  intro s r r2 hr w hr7 hr27 hp hop ha hop2 ha2 hne2 hne3
  have hs : Fetches s := ⟨hr, by omega⟩
  obtain ⟨t, ht, h⟩ := exec_push hs r
  have hpc : t.pc = s.pc + 2 := BitVec.eq_of_toNat_eq (by rw [h.pc]; bv_omega)
  have push : s.fetched = [opcodeMap .push, regOperand r, s.memRead (s.pc + 2)] := by
    rw [State.fetched, hop, ha]
    rfl
  have pop : t.fetched = [opcodeMap .pop, regOperand r2, t.memRead (t.pc + 2)] := by
    have operand : t.pc + 1 = s.pc + 3 := by rw [hpc, BitVec.add_assoc]; rfl
    rw [State.fetched, operand, h.memKeptBut w _ hne3.symm, ha2, hpc, h.memKeptBut w _ hne2.symm, hop2]
    rfl
  have fetches : Fetches t := h.fetches hr (by omega)
  obtain ⟨u, hu, h'⟩ := exec_pop fetches r2
  obtain ⟨value, sp, regs⟩ := h.undone w hr7 hr27 (fun _ _ => rfl) rfl h'
  exact ⟨t, u, (step_of_opcode hs push).trans ht, (step_of_opcode fetches pop).trans hu, value, sp,
    (h.toGoesOn.trans h'.toGoesOn).pc, regs, fun c hc => (h'.mem c).trans (h.memKeptBut w c hc)⟩

/-! ## Nested PUSHes and POPs -/

/-- Instructions executed one after another go on from where the first of them end. -/
theorem execSeq_append {is : List Instr} {s t : State} (h : execSeq is s = .next t) (js : List Instr) :
    execSeq (is ++ js) s = execSeq js t := by
  induction is generalizing s with
  | nil => cases h; rfl
  | cons i is ih =>
    simp only [execSeq, List.cons_append] at h ⊢
    cases he : exec i s with
    | next u =>
      rw [he] at h
      exact ih h
    | fault f => nomatch f
    | refused f => simp [he] at h

theorem execSeq_cons {i : Instr} {s t : State} (h : exec i s = .next t) (is : List Instr) :
    execSeq (i :: is) s = execSeq is t := by
  rw [execSeq, h]

/-- The PUSHes of registers in order, then their POPs in reverse order. -/
def pushesThenPops (rs : List (Fin 8)) : List Instr :=
  rs.map (fun r => .push (regOperand r)) ++ rs.reverse.map fun r => .pop (regOperand r)

/-- The first register's PUSH and POP enclose those of the others. -/
theorem pushesThenPops_cons (r : Fin 8) (rs : List (Fin 8)) :
    pushesThenPops (r :: rs) = .push (regOperand r) :: (pushesThenPops rs ++ [.pop (regOperand r)]) := by
  simp [pushesThenPops]

/-- The cells that `n` PUSHes write, downward from below `sp`. -/
def BelowBy (n : Nat) (sp c : Byte) : Prop := ∃ k < n, c = sp - Byte.narrow (k + 1)

/-- A cell that the PUSHes after the first write is one that all of them write. -/
theorem BelowBy.succ {n : Nat} {sp c : Byte} (h : BelowBy n (sp - 1) c) : BelowBy (n + 1) sp c := by
  obtain ⟨k, hk, rfl⟩ := h
  have one_more : Byte.narrow (k + 1 + 1) = 1 + Byte.narrow (k + 1) := by
    rw [Byte.narrow, Nat.add_comm, BitVec.ofNat_add]
    rfl
  exact ⟨k + 1, Nat.succ_lt_succ hk, by rw [one_more, sub_sub]⟩

/-- Fewer than 256 PUSHes do not come round to the cell at the stack pointer. -/
theorem not_belowBy_self {n : Nat} (hn : n ≤ 255) (sp : Byte) : ¬ BelowBy n sp sp := by
  rintro ⟨k, hk, h⟩
  have hnat := congrArg BitVec.toNat h
  simp only [Byte.narrow, BitVec.toNat_sub, BitVec.toNat_ofNat] at hnat
  omega

/-- PUSHes, then POPs of the same registers in reverse order, restore every register and the cells they do not write:
what the first register's PUSH and POP enclose keeps the registers and the pushed cell. -/
theorem execSeq_pushesThenPops {rs : List (Fin 8)} {s : State} (hr : s.rs = .running) (w : s.mem.wf = true)
    (h7 : (7 : Fin 8) ∉ rs) (hp : s.pc.toNat + 4 * rs.length ≤ 255) :
    ∃ t, execSeq (pushesThenPops rs) s = .next t ∧ GoesOn (4 * rs.length) s t ∧ RegsKeptBut [] s t ∧
      ∀ c, ¬ BelowBy rs.length (s.reg 7) c → t.memRead c = s.memRead c := by
  induction rs generalizing s with
  | nil => exact ⟨s, rfl, GoesOn.refl s, fun _ _ => rfl, fun _ _ => rfl⟩
  | cons r rs ih =>
    obtain ⟨hr7, h7⟩ : (7 : Fin 8) ≠ r ∧ (7 : Fin 8) ∉ rs := by simpa using h7
    rw [List.length_cons] at hp ⊢
    obtain ⟨s1, hpush, first⟩ := exec_push ⟨hr, by omega⟩ r
    obtain ⟨s2, hinner, on, regs, cells⟩ := ih (first.running hr) (first.wf w) h7 (by rw [first.pc]; omega)
    have before : GoesOn (2 + 4 * rs.length) s s2 := first.toGoesOn.trans on
    obtain ⟨t, hpop, last⟩ := exec_pop (before.fetches hr (by omega)) r
    rw [first.sp] at cells
    obtain ⟨value, -, others⟩ := first.undone w hr7.symm hr7.symm regs (cells _ (not_belowBy_self (by omega) _)) last
    refine ⟨t, ?_, ?_, fun j _ => ?_, fun c hc => ?_⟩
    · rw [pushesThenPops_cons, execSeq_cons hpush, execSeq_append hinner, execSeq_cons hpop, execSeq]
    · have size : 4 * (rs.length + 1) = 2 + 4 * rs.length + 2 := by omega
      exact size ▸ before.trans last.toGoesOn
    · by_cases hj : j = r
      · exact hj ▸ value
      · exact others j (by simpa using hj)
    · have hc1 : c ≠ s.reg 7 - 1 := fun e => hc ⟨0, Nat.succ_pos _, e⟩
      calc t.memRead c = s2.memRead c := last.mem c
        _ = s1.memRead c := cells c fun below => hc below.succ
        _ = s.memRead c := first.memKeptBut w c hc1

/-- Settles O42: by induction on the registers, the first one's PUSH and POP enclosing the others'. -/
theorem nestedPushesAndPopsRestoreAll : Obligations.NestedPushesAndPopsRestoreAll := by
  intro rs s hr w h7 hp
  obtain ⟨t, ht, on, regs, cells⟩ := execSeq_pushesThenPops hr w h7 hp
  exact ⟨t, ht, regs, on.pc, on.fl, on.out, on.status, fun c hc => cells c fun ⟨k, hk, e⟩ => hc k hk e⟩

end Sys2Proof.Proofs.Stack
end

section
/-! CALL, RET and the jumps (spec 44_control.md): what each does and leaves unchanged, its encoding and its faults, that a
RET undoes a CALL, and that JEQ and JNE are opposite. -/

open Sys2Proof Sys2Proof.Machine Sys2Proof.Statements Sys2Proof.Proofs.MachineState Sys2Proof.Proofs.MemoryAccess
open Sys2Proof.Proofs.LoadPrintHalt

namespace Sys2Proof.Proofs.Control

/-- The address of the instruction after a 2-byte one that is fetched does not wrap (R86). -/
theorem toNat_pc_add_two {s : State} (hs : Fetches s) : (s.pc + 2).toNat = s.pc.toNat + 2 :=
  toNat_pc_advance (len := 2) (Nat.add_le_add_right hs.2 2)

/-! ## CALL and RET -/

/-- The effect of CALL through register `i` (R140; with `i = 7` decision D20). -/
structure Called (i : Fin 8) (s t : State) : Prop where
  sp : t.reg 7 = s.reg 7 - 1
  mem : t.mem = s.mem.write (s.reg 7 - 1) (s.pc + 2)
  pc : t.pc = if i = 7 then s.reg 7 - 1 else s.reg i
  regs : RegsKeptBut [7] s t
  fl : t.fl = s.fl
  out : t.out = s.out
  status : StatusKept s t

/-- CALL with its checks passed. -/
theorem exec_call {s : State} (hs : Fetches s) (i : Fin 8) :
    ∃ t, exec (.call (regOperand i)) s = .next t ∧ Called i s t :=
  ⟨_, execCall_next hs.2 i,
    { sp := s.sp_decSp
      mem := congrArg (s.mem.write · _) s.sp_decSp
      pc := call_target s i
      regs := regsKeptBut_setReg s 7 _
      fl := rfl
      out := rfl
      status := ⟨rfl, rfl, rfl, rfl⟩ }⟩

/-- After a CALL the new stack pointer's cell reads as the return address and every other cell as before. -/
theorem Called.memRead {i : Fin 8} {s t : State} (h : Called i s t) (w : s.mem.wf = true) (c : Byte) :
    t.memRead c = if c = s.reg 7 - 1 then s.pc + 2 else s.memRead c :=
  memRead_of_mem_eq_write w h.mem c

theorem Called.memRead_top {i : Fin 8} {s t : State} (h : Called i s t) (w : s.mem.wf = true) :
    t.memRead (s.reg 7 - 1) = s.pc + 2 :=
  (h.memRead w _).trans (if_pos rfl)

/-- The effect of RET (R141). -/
structure Returned (s t : State) : Prop where
  pc : t.pc = s.memRead (s.reg 7)
  sp : t.reg 7 = s.reg 7 + 1
  regs : RegsKeptBut [7] s t
  mem : MemKept s t
  fl : t.fl = s.fl
  out : t.out = s.out
  status : StatusKept s t

/-- RET with its check passed. -/
theorem exec_ret {s : State} (hs : Fetches s) : ∃ t, exec .ret s = .next t ∧ Returned s t :=
  ⟨_, execRet_next hs.2,
    { pc := rfl
      sp := State.sp_incSp _
      regs := regsKeptBut_setReg s 7 _
      mem := fun _ => rfl
      fl := rfl
      out := rfl
      status := ⟨rfl, rfl, rfl, rfl⟩ }⟩

/-- Settles O24: up to 253 CALL is one register write, one memory write and the transfer. -/
theorem callPushesTheReturnAddress : Obligations.CallPushesTheReturnAddress := by
  refine ⟨fun _ => rfl, fun i s hs w => ?_, trapsOnOneRegister (m := .call) rfl⟩
  obtain ⟨t, ht, h⟩ := exec_call hs i
  exact ⟨t, ht, h.sp, by rw [h.memRead_top w, toNat_pc_add_two hs], fun c hc => (h.memRead w c).trans (if_neg hc),
    h.pc, h.regs, h.fl, h.out, h.status⟩

/-- Settles O25: up to 253 RET is the transfer to the byte at the stack pointer and the increment. -/
theorem retReturnsToTheStackTop : Obligations.RetReturnsToTheStackTop := by
  refine ⟨rfl, fun s hs => ?_, fun _ _ => exec_at_top .ret⟩
  obtain ⟨t, ht, h⟩ := exec_ret hs
  exact ⟨t, ht, h.pc, h.sp, h.regs, h.mem, h.fl, h.out, h.status⟩

/-- Settles O43: a RET reads the return address from the cell the CALL stored it in, and its increment undoes the CALL's
decrement. -/
theorem retUndoesCall : Obligations.RetUndoesCall := by
  intro s t i hs w ht
  obtain ⟨t', ht', call⟩ := exec_call hs i
  obtain rfl : t' = t := Host.Outcome.next.inj (ht'.symm.trans ht)
  refine ⟨call.sp, call.memRead_top w, fun u hu sp cell => ?_⟩
  obtain ⟨v, hv, ret⟩ := exec_ret hu
  have pc : v.pc = s.pc + 2 := by rw [ret.pc, sp, cell]
  exact ⟨v, hv, pc ▸ toNat_pc_add_two hs, by rw [ret.sp, sp, BitVec.sub_add_cancel]⟩

/-! ## JMP, JEQ and JNE -/

/-- A jump with its checks passed sets PC, to its target or to the next instruction. -/
theorem jumpWhen_setPc {s : State} (hs : Fetches s) (taken : Bool) (i : Fin 8) :
    jumpWhen taken (regOperand i) s = .next (s.setPc (if taken then s.reg i else s.pc + 2)) := by
  rw [jumpWhen_next hs.2]
  cases taken <;> rfl

/-- Setting PC leaves all else unchanged. -/
theorem kept_setPc (s : State) (p : Byte) : RegsKeptBut [] s (s.setPc p) ∧ MemKept s (s.setPc p) ∧
    (s.setPc p).fl = s.fl ∧ (s.setPc p).out = s.out ∧ StatusKept s (s.setPc p) :=
  ⟨fun _ _ => rfl, fun _ => rfl, rfl, rfl, rfl, rfl, rfl, rfl⟩

/-- Settles O26: JMP is the jump that is always taken. -/
theorem jmpJumpsToTheRegister : Obligations.JmpJumpsToTheRegister :=
  ⟨fun _ => rfl, fun i s hs => ⟨_, jumpWhen_setPc hs true i, rfl, kept_setPc s _⟩, trapsOnOneRegister (m := .jmp) rfl⟩

/-- Settles O27: JEQ is the jump taken when the E bit is set. -/
theorem jeqJumpsWhenEqual : Obligations.JeqJumpsWhenEqual := by
  refine ⟨fun _ => rfl, fun i s hs => ⟨_, jumpWhen_setPc hs s.flagE i, fun hE => ?_, fun hE => ?_, kept_setPc s _⟩,
    trapsOnOneRegister (m := .jeq) rfl⟩
  · simp [flagE_eq, hE]
  · simpa [flagE_eq, hE] using toNat_pc_add_two hs

/-- Settles O28: JNE is the jump taken when the E bit is clear. -/
theorem jneJumpsWhenNotEqual : Obligations.JneJumpsWhenNotEqual := by
  refine ⟨fun _ => rfl, fun i s hs => ⟨_, jumpWhen_setPc hs (!s.flagE) i, fun hE => ?_, fun hE => ?_, kept_setPc s _⟩,
    trapsOnOneRegister (m := .jne) rfl⟩
  · simp [flagE_eq, hE]
  · simpa [flagE_eq, hE] using toNat_pc_add_two hs

/-- Settles O38: of JEQ and JNE one is taken, and the other goes on at an address that is not the target. -/
theorem jeqAndJneAreOpposite : Obligations.JeqAndJneAreOpposite := by
  intro s i hs hne
  have next : s.pc + 2 ≠ s.reg i := fun e => hne (e ▸ toNat_pc_add_two hs)
  refine ⟨_, _, jumpWhen_setPc hs s.flagE i, jumpWhen_setPc hs (!s.flagE) i, ?_⟩
  cases s.flagE <;> simpa using next

end Sys2Proof.Proofs.Control
end

section
/-! The ends of a run (spec 60_exceptions.md): an unwritten cell is an unknown opcode, and a core that has halted,
stopped or faulted changes only by RESET. -/

open Sys2Proof Sys2Proof.Machine Sys2Proof.Statements Sys2Proof.Proofs.Cycle

namespace Sys2Proof.Proofs.Exceptions

/-! ## No event changes a core that has ended -/

/-- A step, a LOAD or a START changes only a core that is RUNNING or IDLE (R168, R192). -/
theorem after_of_ended {s : State} (running : s.rs ≠ .running) (idle : s.rs ≠ .idle) (e : Event) :
    after s e = .next s := by
  cases e with
  | step => exact step_not_running running
  | load a v => exact congrArg Host.Outcome.next (State.transact_ignored idle a v).1
  | start => exact congrArg Host.Outcome.next (State.transact_ignored idle 0 0).2

/-- A state that every event leaves as it is, every sequence of events leaves as it is. -/
theorem afterAll_of_after_self {s : State} (h : ∀ e, after s e = .next s) (es : List Event) :
    afterAll s es = .next s := by
  induction es with
  | nil => rfl
  | cons e es ih => simpa only [afterAll, h e] using ih

/-- Settles O15: a core that has ended is neither RUNNING nor IDLE, so no event changes it. -/
theorem terminalMeansTerminal : Obligations.TerminalMeansTerminal := by
  intro s h
  have running : s.rs ≠ .running := fun hr => by simp [hr] at h
  have idle : s.rs ≠ .idle := fun hr => by simp [hr] at h
  exact ⟨afterAll_of_after_self (after_of_ended running idle), s.transact_reset⟩

/-! ## An unwritten cell -/

/-- Settles O14: 0 is no opcode, and the stop at an unknown opcode changes BADOP and RS only. -/
theorem runningIntoAnUnwrittenCellStops : Obligations.RunningIntoAnUnwrittenCellStops := by
  intro s hs h0
  have unknown : s.memRead s.pc ∉ opcodeBytes := by rw [h0]; decide
  exact ⟨_, step_unknown hs unknown, rfl, h0, rfl, rfl, rfl, fun _ _ => rfl, fun _ => rfl, rfl, rfl⟩

end Sys2Proof.Proofs.Exceptions
end

section
/-! The host's side (spec 70_reset_and_hazards.md): what LOAD, START and the host's reads do, the state a launched image
starts from (R195), and an instruction word placed where the next step fetches. -/

open Sys2Proof Sys2Proof.Machine Sys2Proof.Statements Sys2Proof.Proofs.MachineState

namespace Sys2Proof.Proofs.HostPort

/-! ## Bytes stored at successive addresses -/

/-- Storing bytes changes memory and nothing else. -/
theorem storeBytes_frame (a : Byte) (bytes : List Byte) (s : State) :
    ∃ m, State.storeBytes a bytes s = { s with mem := m } := by
  induction bytes generalizing a s with
  | nil => exact ⟨s.mem, rfl⟩
  | cons v rest ih => exact ih (a + 1) (s.memWrite a v)

@[simp] theorem pc_storeBytes (a : Byte) (bytes : List Byte) (s : State) :
    (State.storeBytes a bytes s).pc = s.pc := by
  obtain ⟨m, hm⟩ := storeBytes_frame a bytes s
  rw [hm]

/-- A cell reads as the byte stored there, or as before: with at most 256 bytes no cell is stored to twice. -/
theorem memRead_storeBytes {s : State} {bytes : List Byte} (w : s.mem.wf = true) (h : bytes.length ≤ 256)
    (a c : Byte) : (State.storeBytes a bytes s).memRead c = bytes.getD (c - a).toNat (s.memRead c) := by
  induction bytes generalizing a s with
  | nil => rfl
  | cons v rest ih =>
    rw [List.length_cons] at h
    have tail := ih (s := s.memWrite a v) (Memory.wf_write w a v) (by omega) (a + 1)
    rw [State.memRead_memWrite w] at tail
    rw [State.storeBytes, tail]
    obtain rfl | hne := eq_or_ne c a
    · have beyond : rest.length ≤ (c - (c + 1)).toNat := by bv_omega
      rw [if_pos rfl, List.getD_eq_default _ _ beyond, BitVec.sub_self]
      rfl
    · have next : (c - a).toNat = (c - (a + 1)).toNat + 1 := by bv_omega
      rw [if_neg hne, next, List.getD_cons_succ]

/-! ## A word placed where the next step fetches -/

/-- Three bytes stored at `PC` are what the next step fetches (R82). -/
theorem fetched_storeBytes {s : State} (w : s.mem.wf = true) (ir a b : Byte) :
    (State.storeBytes s.pc [ir, a, b] s).fetched = [ir, a, b] := by
  have read := memRead_storeBytes w (show [ir, a, b].length ≤ 256 by simp) s.pc
  simp [State.fetched, read]

/-- The place chosen to fetch from passes the fetch range check (R81). -/
theorem pc_fetchable_le (s : State) : s.fetchable.pc.toNat ≤ 253 := by
  unfold State.fetchable
  split
  · assumption
  · simp

@[simp] theorem mem_fetchable (s : State) : s.fetchable.mem = s.mem := by
  unfold State.fetchable
  split <;> rfl

/-- A table word stands for what the decoder reads from its bytes. -/
theorem decodeTableWord_eq_some_iff {nbits w : Nat} {i : Instr} :
    decodeTableWord nbits w = some i ↔ ∃ rest, decode (wordBytes nbits w) = .ok (i, rest) := by
  unfold decodeTableWord
  cases decode (wordBytes nbits w) with
  | error e => simp
  | ok r => simp [Prod.ext_iff]

/-- A core with a table word placed runs the instruction the word decodes to. -/
theorem runsAt_withFetchWord {s : State} {nbits w : Nat} {i : Instr} (hw : s.mem.wf = true)
    (h : decodeTableWord nbits w = some i) : RunsAt (s.withFetchWord nbits w) i := by
  obtain ⟨rest, hd⟩ := decodeTableWord_eq_some_iff.mp h
  have hf : (s.withFetchWord nbits w).fetched = wordBytes nbits w := fetched_storeBytes (by simpa using hw) _ _ _
  have hpc : (s.withFetchWord nbits w).pc = s.fetchable.pc := pc_storeBytes _ _ _
  exact ⟨⟨rfl, hpc ▸ pc_fetchable_le s⟩, rest, hf ▸ hd⟩

/-- Settles O10: the core fetches the three bytes of the word, and a step runs what it fetches. -/
theorem placedWordRunsNext : Obligations.PlacedWordRunsNext :=
  fun _ _ _ _ hw h => step_of_runsAt (runsAt_withFetchWord hw h)

/-! ## The transactions -/

/-- The codes of RS tell the run statuses apart (R23). -/
theorem runStatus_code_inj {r r' : RunStatus} : r.code = r'.code ↔ r = r' := by
  cases r <;> cases r' <;> decide

/-- The codes of CAUSE tell the causes apart (R25). -/
theorem cause_code_inj {c c' : Cause} : c.code = c'.code ↔ c = c' := by
  cases c <;> cases c' <;> decide

/-- Settles O45: LOAD is one memory write, and each code clause compares with the code of one status or cause. -/
theorem hostTransactions : Obligations.HostTransactions := by
  refine ⟨fun s a v hr w => ?_, fun s => State.transact_start, fun s a v hr => State.transact_ignored hr a v,
    fun s => rfl, fun s => ?_, fun s => ?_, fun s => rfl⟩
  · have read := State.memRead_memWrite w a
    refine ⟨s.memWrite a v, State.transact_load hr a v, ?_, fun c hc => ?_, fun _ _ => rfl, rfl, rfl, rfl,
      rfl, rfl, rfl, rfl⟩
    · rw [read, if_pos rfl]
    · rw [read, if_neg hc]
  · exact ⟨runStatus_code_inj (r' := .idle), runStatus_code_inj (r' := .running), runStatus_code_inj (r' := .halted),
      runStatus_code_inj (r' := .stopped), runStatus_code_inj (r' := .faulted)⟩
  · exact ⟨cause_code_inj (c' := .none), cause_code_inj (c' := .address), cause_code_inj (c' := .regIndex),
      cause_code_inj (c' := .aluUnsupported)⟩

/-- The records of an IDLE core have `PC` at its reset value. -/
theorem pc_of_recordsOk_idle {s : State} (h : s.recordsOk) (hr : s.rs = .idle) : s.pc = 0 := by
  simp only [State.recordsOk, hr] at h
  obtain ⟨-, -, -, hpc, -, -⟩ := h
  exact hpc

/-- Settles O46: the invariant puts `PC` at 0 in a reachable IDLE state, and START keeps `PC` and memory. -/
theorem startRunsFromAddressZero : Obligations.StartRunsFromAddressZero := by
  intro s h hr
  have hpc : s.pc = 0 := pc_of_recordsOk_idle (inv_of_reachable h).records hr
  have hf : s.started.fetched = s.fetched := rfl
  refine ⟨State.transact_start hr, hpc, ?_⟩
  rw [State.transact_start hr, hf, State.fetched, hpc]
  rfl

/-! ## The launch state -/

/-- Into an IDLE core an image is loaded by plain stores (R193). -/
theorem loadImage_eq_storeBytes {s : State} (hr : s.rs = .idle) (a : Byte) (image : List Byte) :
    State.loadImage a image s = State.storeBytes a image s := by
  induction image generalizing a s with
  | nil => rfl
  | cons v rest ih =>
    rw [State.loadImage, State.transact_load hr]
    exact ih (s := s.memWrite a v) hr (a + 1)

/-- Loading an image is a sequence of LOADs. -/
theorem reachable_loadImage {s : State} (h : Reachable s) (a : Byte) (image : List Byte) :
    Reachable (State.loadImage a image s) := by
  induction image generalizing a s with
  | nil => exact h
  | cons v rest ih => exact ih (h.transact (.load a v)) (a + 1)

/-- Settles O47: memory is the image stored over the reset state, and START then changes RS only. -/
theorem launchState : Obligations.LaunchState := by
  refine fun image => ⟨fun h => if_neg (Nat.not_le.mpr h), fun h => ?_⟩
  have read := memRead_storeBytes State.wf_reset h 0
  obtain ⟨m, hm⟩ := storeBytes_frame 0 image State.reset
  have launched : (State.loadImage 0 image State.reset).transact .start = { State.reset with mem := m }.started := by
    rw [loadImage_eq_storeBytes rfl, hm]
    exact State.transact_start rfl
  have reach : Reachable { State.reset with mem := m }.started :=
    launched ▸ (reachable_loadImage .reset 0 image).transact .start
  rw [hm] at read
  refine ⟨_, (if_pos h).trans (congrArg some launched), fun c => ?_, ?_, rfl, rfl, rfl, rfl, rfl, rfl, rfl,
    (inv_of_reachable reach).mem, reach⟩
  · exact (read c).trans (congrArg (image.getD ·.toNat 0) (BitVec.sub_zero c))
  · exact (by decide : ∀ j : Fin 8, State.reset.reg j = if j = 7 then 0xF4 else 0)

end Sys2Proof.Proofs.HostPort
end
